-- ==== Sys2Proof/Word.lean ====
section
/-! DEFINITION. The one width of the machine: registers, memory cells, the pc and instruction bytes are 8-bit
(spec/00_scope.md R5, R7; spec/10_state.md R20, R26, R30). -/

namespace Sys2Proof

/-- A register value, a memory cell, the pc, an opcode or operand byte: an unsigned integer 0..255 (R7). -/
abbrev Byte := BitVec 8

/-- The index of one of the eight general registers R0..R7 (R20). -/
abbrev RegIdx := Fin 8

/-- The operand byte that names register `i` (R73: the whole byte is the index). -/
def regByte (i : RegIdx) : Byte := BitVec.ofNat 8 i.val

end Sys2Proof
end

