-- ==== Sys2Proof/Config.lean ====
section
/-! DEFINITION. What is fixed for one core: the parameters of spec/00_scope.md R5, and the one value the spec leaves
open, the reset value of R0..R6 (REG_INIT), as an uninterpreted constant. -/

namespace Sys2Proof

/-- The 34 named opcode slots: the ALU map (spec/30_encoding.md R78), the dispatch table (R79) and the declared or absent
slots (R82). The parameter OPCODE_MAP gives each a byte. -/
inductive OpName where
  | add | sub | mul | div | mod | inc | dec | cmp | and | not | or | xor | shl | shr
  | nop | hlt | ldi | prn | push | pop | call
  | pra | ret | int | iret | jmp | jeq | jne | jgt | jlt | jle | jge | ld | st
  deriving DecidableEq, Repr

/-- The parameter OPCODE_MAP of R5: the value of each opcode. -/
abbrev OpcodeMap := OpName → Byte

namespace Config

/-- The parameter DIV_OPERAND_ORDER of R5: which register of DIV is the dividend. -/
inductive DivOperandOrder where
  /-- x[a] <- x[a] div x[b], the spec's choice (spec/92_eei_decisions.md D5). -/
  | aByB
  /-- x[a] <- x[b] div x[a], the one alternative a model may select. -/
  | sourceBByA
  deriving DecidableEq, Repr

/-- DESIGN CHOICE (the spec's own, D5), unsafe: the order `exec` uses. Log 3. -/
def divOperandOrder : DivOperandOrder := .aByB

/-- REG_INIT: the reset values of R0..R6, which the spec leaves open (spec/10_state.md R25, D10: "A model must not assume
zero"). Uninterpreted: nothing can be proved of the values. DESIGN CHOICE, log 1. -/
opaque regInit : Fin 7 → Byte

/-- SP_INDEX (R5): the register used as the stack pointer. -/
def spIndex : RegIdx := 7

/-- SP_INIT (R5, spec/10_state.md R24). -/
def spInit : Byte := 0xF4

/-- STACK_TOP (R5, spec/10_state.md R23): the value of SP when the stack is empty. -/
def stackTop : Byte := 0xF4

/-- PC_INIT (R5, spec/10_state.md R27). -/
def pcInit : Byte := 0

/-- LOAD_BASE (R5): the address of the first loaded byte. -/
def loadBase : Nat := 0

/-- MEM_SIZE (R5): the number of memory cells, addresses 0..255. -/
def memSize : Nat := 256

/-- What a memory cell that nothing has written holds: 0 (spec/70_reset_and_hazards.md R241, D11), log 11. -/
def blankByte : Byte := 0

end Config

end Sys2Proof
end

