-- ==== Sys2Proof/Syntax.lean ====
section
/-! DEFINITION. The instructions: one constructor per row of spec/opcode_table.json. A register operand is the whole
operand byte, 0..255 (spec/30_encoding.md R73); whether it names a register is checked when the instruction executes
(spec/40_cycle.md R103), so the term holds the byte. -/

namespace Sys2Proof

/-- An instruction with its operand bytes (R72). The 13 slots of R82 carry no operand: "No operand byte is read"
(spec/43_unimplemented.md R180), log 4. -/
inductive Instr where
  /-- ADD, 41_alu.md R121. -/
  | add (a b : Byte)
  /-- SUB, 41_alu.md R122. -/
  | sub (a b : Byte)
  /-- MUL, 41_alu.md R123. -/
  | mul (a b : Byte)
  /-- DIV, 41_alu.md R124. -/
  | div (a b : Byte)
  /-- MOD, 41_alu.md R125. -/
  | mod (a b : Byte)
  /-- INC, 41_alu.md R126. -/
  | inc (a : Byte)
  /-- DEC, 41_alu.md R127. -/
  | dec (a : Byte)
  /-- CMP, 41_alu.md R134. -/
  | cmp (a b : Byte)
  /-- AND, 41_alu.md R128. -/
  | and (a b : Byte)
  /-- NOT, 41_alu.md R131. -/
  | not (a : Byte)
  /-- OR, 41_alu.md R129. -/
  | or (a b : Byte)
  /-- XOR, 41_alu.md R130. -/
  | xor (a b : Byte)
  /-- SHL, 41_alu.md R132. -/
  | shl (a b : Byte)
  /-- SHR, 41_alu.md R133. -/
  | shr (a b : Byte)
  /-- NOP, 42_handlers.md R151. -/
  | nop
  /-- HLT, 42_handlers.md R152. -/
  | hlt
  /-- LDI, 42_handlers.md R154. -/
  | ldi (r imm8 : Byte)
  /-- PRN, 42_handlers.md R155. -/
  | prn (r : Byte)
  /-- PUSH, 42_handlers.md R156. -/
  | push (r : Byte)
  /-- POP, 42_handlers.md R158. -/
  | pop (r : Byte)
  /-- CALL, 42_handlers.md R162. -/
  | call (r : Byte)
  /-- PRA, 43_unimplemented.md R181. -/
  | pra
  /-- RET, 43_unimplemented.md R182. -/
  | ret
  /-- INT, 43_unimplemented.md R183. -/
  | int
  /-- IRET, 43_unimplemented.md R184. -/
  | iret
  /-- JMP, 43_unimplemented.md R185. -/
  | jmp
  /-- JEQ, 43_unimplemented.md R186. -/
  | jeq
  /-- JNE, 43_unimplemented.md R187. -/
  | jne
  /-- JGT, 43_unimplemented.md R188. -/
  | jgt
  /-- JLT, 43_unimplemented.md R189. -/
  | jlt
  /-- JLE, 43_unimplemented.md R190. -/
  | jle
  /-- JGE, 43_unimplemented.md R191. -/
  | jge
  /-- LD, 43_unimplemented.md R192. -/
  | ld
  /-- ST, 43_unimplemented.md R193. -/
  | st
  deriving DecidableEq, Repr

end Sys2Proof
end

