-- ==== Sys2Proof/WellFormed.lean ====
section
/-! DEFINITION. Well-formed instructions: every register operand names one of R0..R7 (spec/30_encoding.md R73). The
decoder also reads an ill-formed one, which raises RegisterOutOfRange when it executes (spec/40_cycle.md R103). -/

namespace Sys2Proof

/-- Values 0..7 select R0..R7; a value of 8 or more selects no register (R73). -/
def namesRegister (idx : Byte) : Bool := decide (idx.toNat < 8)

/-- Every register operand names a register. LDI's second operand is an immediate and is not checked (R103). -/
def Instr.wellFormed : Instr → Bool
  | .add a b | .sub a b | .mul a b | .div a b | .mod a b | .cmp a b
  | .and a b | .or a b | .xor a b | .shl a b | .shr a b => namesRegister a && namesRegister b
  | .inc a | .dec a | .not a => namesRegister a
  | .ldi r _ => namesRegister r
  | .prn r | .push r | .pop r | .call r => namesRegister r
  | .nop | .hlt => true
  | .pra | .ret | .int | .iret | .jmp | .jeq | .jne | .jgt | .jlt | .jle | .jge | .ld | .st => true

end Sys2Proof
end

