-- ==== Sys2Proof/Decode.lean ====
section
/-! DEFINITION. The opcode map, the classification of an opcode byte, the decoder (total on any bytes) and, after it, the
encoder (spec/30_encoding.md R70 to R86; spec/40_cycle.md R101, R102). -/

namespace Sys2Proof

/-- The default OPCODE_MAP: the LS8 assignment (R78, R79, R82; spec/92_eei_decisions.md D1). Log 2. -/
def opcodeMap : OpcodeMap
  | .add => 0xA0
  | .sub => 0xA1
  | .mul => 0xA2
  | .div => 0xA3
  | .mod => 0xA4
  | .inc => 0x65
  | .dec => 0x66
  | .cmp => 0xA7
  | .and => 0xA8
  | .not => 0x69
  | .or => 0xAA
  | .xor => 0xAB
  | .shl => 0xAC
  | .shr => 0xAD
  | .nop => 0x00
  | .hlt => 0x01
  | .ldi => 0x82
  | .prn => 0x47
  | .push => 0x45
  | .pop => 0x46
  | .call => 0x50
  | .pra => 0x48
  | .ret => 0x11
  | .int => 0x52
  | .iret => 0x13
  | .jmp => 0x54
  | .jeq => 0x55
  | .jne => 0x56
  | .jgt => 0x57
  | .jlt => 0x58
  | .jle => 0x59
  | .jge => 0x5A
  | .ld => 0x83
  | .st => 0x84

/-- The names of the ALU map (R78). -/
def aluNames : List OpName :=
  [.add, .sub, .mul, .div, .mod, .inc, .dec, .cmp, .and, .not, .or, .xor, .shl, .shr]

/-- The names of the handler dispatch table (R79). -/
def dispatchNames : List OpName := [.nop, .hlt, .ldi, .prn, .push, .pop, .call]

/-- The names of the declared and absent slots, which no table of the core holds (R82). -/
def absentNames : List OpName :=
  [.pra, .ret, .int, .iret, .jmp, .jeq, .jne, .jgt, .jlt, .jle, .jge, .ld, .st]

/-- Field AA, bits 7:6: the number of operand bytes that follow (R70, R71). -/
def operandCountField (op : Byte) : Nat := (op >>> 6).toNat

/-- Field B, bit 5: the byte is an ALU opcode (R71, R77). -/
def aluBit (op : Byte) : Bool := op.getLsbD 5

/-- Field C, bit 4: informational (R71, R76). No rule of the core reads it. -/
def pcBit (op : Byte) : Bool := op.getLsbD 4

/-- Why bytes are not an instruction. -/
inductive DecodeError where
  /-- Bit 5 is clear and the byte is in no table (R77): "unknown command at pc". -/
  | fatalDecodeError
  /-- Bit 5 is set and the byte is not in the ALU map (R77). -/
  | unsupportedALUOperation
  /-- The bytes end before the instruction does (R102). -/
  | truncated
  deriving DecidableEq, Repr

/-- Classify an opcode byte (R77): the ALU test comes first. The named slots of R82 are read as themselves; each takes
FatalDecodeError as its whole effect (R180). -/
def classifyIn (m : OpcodeMap) (op : Byte) : Except DecodeError OpName :=
  if aluBit op then
    match aluNames.find? (fun n => m n == op) with
    | some n => .ok n
    | none => .error .unsupportedALUOperation
  else
    match (dispatchNames ++ absentNames).find? (fun n => m n == op) with
    | some n => .ok n
    | none => .error .fatalDecodeError

/-- Classification under the default map. -/
def classify (op : Byte) : Except DecodeError OpName := classifyIn opcodeMap op

/-- Take the two operand bytes a and b of formats F2RR and F2RI (R72). -/
def takeTwo (c : Byte → Byte → Instr) : List Byte → Except DecodeError (Instr × List Byte)
  | a :: b :: rest => .ok (c a b, rest)
  | _ => .error .truncated

/-- Take the one operand byte of format F1R (R72, R75). -/
def takeOne (c : Byte → Instr) : List Byte → Except DecodeError (Instr × List Byte)
  | a :: rest => .ok (c a, rest)
  | [] => .error .truncated

/-- Take the operand bytes of a named opcode (R72). The slots of R82 take none (R180). -/
def takeOperands (name : OpName) (rest : List Byte) : Except DecodeError (Instr × List Byte) :=
  match name with
  | .add => takeTwo .add rest
  | .sub => takeTwo .sub rest
  | .mul => takeTwo .mul rest
  | .div => takeTwo .div rest
  | .mod => takeTwo .mod rest
  | .inc => takeOne .inc rest
  | .dec => takeOne .dec rest
  | .cmp => takeTwo .cmp rest
  | .and => takeTwo .and rest
  | .not => takeOne .not rest
  | .or => takeTwo .or rest
  | .xor => takeTwo .xor rest
  | .shl => takeTwo .shl rest
  | .shr => takeTwo .shr rest
  | .nop => .ok (.nop, rest)
  | .hlt => .ok (.hlt, rest)
  | .ldi => takeTwo .ldi rest
  | .prn => takeOne .prn rest
  | .push => takeOne .push rest
  | .pop => takeOne .pop rest
  | .call => takeOne .call rest
  | .pra => .ok (.pra, rest)
  | .ret => .ok (.ret, rest)
  | .int => .ok (.int, rest)
  | .iret => .ok (.iret, rest)
  | .jmp => .ok (.jmp, rest)
  | .jeq => .ok (.jeq, rest)
  | .jne => .ok (.jne, rest)
  | .jgt => .ok (.jgt, rest)
  | .jlt => .ok (.jlt, rest)
  | .jle => .ok (.jle, rest)
  | .jge => .ok (.jge, rest)
  | .ld => .ok (.ld, rest)
  | .st => .ok (.st, rest)

/-- Decode the instruction at the head of a list of bytes under an opcode map: the instruction and the bytes after it,
or the reason there is none. -/
def decodeIn (m : OpcodeMap) : List Byte → Except DecodeError (Instr × List Byte)
  | [] => .error .truncated
  | op :: rest =>
    match classifyIn m op with
    | .ok name => takeOperands name rest
    | .error e => .error e

/-- The decoder of the core, under the default map. -/
def decode (bytes : List Byte) : Except DecodeError (Instr × List Byte) := decodeIn opcodeMap bytes

/-- The number of operand bytes the step reads after the opcode byte (R102: "exactly the operand bytes the instruction
has", `op[7:6]` for a byte of the two tables; R180: none for a slot of R82; none where classification faults). -/
def operandBytesRead (op : Byte) : Nat :=
  match classify op with
  | .ok name => if absentNames.contains name then 0 else operandCountField op
  | .error _ => 0

/-- The opcode slot of an instruction. -/
def Instr.name : Instr → OpName
  | .add _ _ => .add
  | .sub _ _ => .sub
  | .mul _ _ => .mul
  | .div _ _ => .div
  | .mod _ _ => .mod
  | .inc _ => .inc
  | .dec _ => .dec
  | .cmp _ _ => .cmp
  | .and _ _ => .and
  | .not _ => .not
  | .or _ _ => .or
  | .xor _ _ => .xor
  | .shl _ _ => .shl
  | .shr _ _ => .shr
  | .nop => .nop
  | .hlt => .hlt
  | .ldi _ _ => .ldi
  | .prn _ => .prn
  | .push _ => .push
  | .pop _ => .pop
  | .call _ => .call
  | .pra => .pra
  | .ret => .ret
  | .int => .int
  | .iret => .iret
  | .jmp => .jmp
  | .jeq => .jeq
  | .jne => .jne
  | .jgt => .jgt
  | .jlt => .jlt
  | .jle => .jle
  | .jge => .jge
  | .ld => .ld
  | .st => .st

/-- The operand bytes of an instruction, in byte order (R72). -/
def Instr.operands : Instr → List Byte
  | .add a b | .sub a b | .mul a b | .div a b | .mod a b | .cmp a b
  | .and a b | .or a b | .xor a b | .shl a b | .shr a b | .ldi a b => [a, b]
  | .inc a | .dec a | .not a | .prn a | .push a | .pop a | .call a => [a]
  | .nop | .hlt => []
  | .pra | .ret | .int | .iret | .jmp | .jeq | .jne | .jgt | .jlt | .jle | .jge | .ld | .st => []

/-- Encode under an opcode map: the opcode byte, then the operand bytes (R70, R72). -/
def encodeIn (m : OpcodeMap) (i : Instr) : List Byte := m i.name :: i.operands

/-- The encoder of the core, under the default map. -/
def encode (i : Instr) : List Byte := encodeIn opcodeMap i

/-- The bytes of the opcode-table word `w` of `nbits` bits, the first byte in its bits 7:0 (an instruction's bytes stand at
ascending addresses, spec/20_memory.md R51), followed by zero bytes up to the longest instruction (3 bytes). -/
def tableBytes (nbits w : Nat) : List Byte :=
  let v := w % 2 ^ nbits
  [BitVec.ofNat 8 v, BitVec.ofNat 8 (v / 256), BitVec.ofNat 8 (v / 65536)]

/-- The instruction the decoder reads from an opcode-table word. -/
def decodeTableWord (nbits w : Nat) : Option Instr :=
  match decode (tableBytes nbits w) with
  | .ok (i, _) => some i
  | .error _ => none

end Sys2Proof
end

