-- ==== Sys2Proof/Machine/State.lean ====
section
/-! DEFINITION. The state of the machine as plain data (spec/10_state.md: the tuple x[0..7], pc, mem, run, fault, out), the
two reasons a step gives no next state, and the state after reset. -/

namespace Sys2Proof.Machine

/-- Memory: (address, byte) cells, addresses strictly rising and below 256, no cell listed with the byte 0 that an unlisted
cell holds (spec/10_state.md R30; spec/70_reset_and_hazards.md R241). The form is `Memory.wf` in Machine/Ops.lean. -/
abbrev Memory := List Host.Cell

/-- The run state (spec/10_state.md R28). At an instruction boundary EXECUTING does not occur. -/
inductive RunState where
  | fetching | executing | halted | faulted
  deriving DecidableEq, Repr

/-- The seven fault kinds (spec/60_exceptions.md R200). -/
inductive FaultKind where
  | fatalDecodeError
  | unsupportedALUOperation
  | divisionByZero
  | stackOverflow
  | stackUnderflow
  | memoryOutOfRange
  | registerOutOfRange
  deriving DecidableEq, Repr

/-- The fault record: kind, address and opcode byte of the faulting instruction (spec/10_state.md R29). -/
structure FaultRecord where
  kind : FaultKind
  addr : Byte
  opcode : Byte
  deriving DecidableEq, Repr

/-- The complete state of one core (spec/10_state.md). -/
structure State where
  /-- R0..R7; R7 is the stack pointer (R20, R21). -/
  regs : Vector Byte 8
  /-- The program counter (R26). -/
  pc : Byte
  /-- Memory, shared by code and stack (R30). -/
  mem : Memory
  /-- The run state (R28). -/
  run : RunState
  /-- The fault record; empty until a fault (R29). -/
  fault : Option FaultRecord
  /-- The output stream, oldest byte first (R31). -/
  out : List Byte
  deriving DecidableEq, Repr

/-- Why the core has no step. The faults of spec/60_exceptions.md are not among these: the spec gives their effect, so a
faulting step has a next state (run FAULTED and the fault record), log 10. The three names are the model's, log 5. -/
inductive Fault where
  /-- Raised by `step` when run = HALTED: "the core has no step" (spec/40_cycle.md R100). Safe: the spec gives none. -/
  | noStepHalted
  /-- Raised by `step` when run = FAULTED: "the core has no step" (R100). Safe: the spec gives none. -/
  | noStepFaulted
  /-- Raised by `step` when run = EXECUTING, which exists only inside a step (spec/10_state.md R28). Safe: no instruction
  boundary has it. -/
  | noStepExecuting
  deriving DecidableEq, Repr

/-- Why an instruction has no meaning in the model. -/
inductive Refusal where
  /-- Raised by an arm of `exec` for an instruction not modelled yet; no arm does. Safe. -/
  | notModelled (mnemonic : String)
  deriving DecidableEq, Repr

/-- The state after reset with no program image loaded (spec/10_state.md R37; spec/70_reset_and_hazards.md R240): R7 = 0xF4,
pc = 0, every cell 0, FETCHING, no fault, no output. R0..R6 hold the uninterpreted `Config.regInit` (R25), log 1. -/
def State.reset : State where
  regs := #v[Config.regInit 0, Config.regInit 1, Config.regInit 2, Config.regInit 3, Config.regInit 4,
    Config.regInit 5, Config.regInit 6, Config.spInit]
  pc := Config.pcInit
  mem := []
  run := .fetching
  fault := none
  out := []

end Sys2Proof.Machine
end

