-- ==== Sys2Proof/Machine/Ops.lean ====
section
/-! DEFINITION. The named operations over memory, registers, the output stream and the pc (the primitives of
spec/00_scope.md R8), and the one operation that takes a fault (spec/40_cycle.md R106). -/

namespace Sys2Proof.Machine

/-! ## Memory -/

/-- The byte in a cell (spec/20_memory.md R57): the listed one, or the byte of a cell nothing has written. -/
def Memory.read : Memory → Nat → Byte
  | [], _ => Config.blankByte
  | (b, w) :: m, a => if a = b then w else Memory.read m a

/-- List a cell before `m` unless it holds what an unlisted cell reads as. -/
def Memory.cell (a : Nat) (v : Byte) (m : Memory) : Memory :=
  if v = Config.blankByte then m else (a, v) :: m

/-- Write a byte to a cell, keeping the canonical form. -/
def Memory.write : Memory → Nat → Byte → Memory
  | [], a, v => Memory.cell a v []
  | (b, w) :: m, a, v =>
    if a < b then Memory.cell a v ((b, w) :: m)
    else if a = b then Memory.cell a v m
    else (b, w) :: Memory.write m a v

/-- The canonical form from address `lo` on: addresses strictly rising, within 0..255, no blank cell listed. -/
def Memory.wfFrom : Nat → Memory → Bool
  | _, [] => true
  | lo, (a, v) :: m =>
    decide (lo ≤ a) && decide (a < Config.memSize) && decide (v ≠ Config.blankByte) && Memory.wfFrom (a + 1) m

/-- The canonical form of memory. -/
def Memory.wf (m : Memory) : Bool := Memory.wfFrom 0 m

/-- The cells of an image placed from address `a` on, in file order with no gaps (spec/70_reset_and_hazards.md R241). -/
def Memory.ofImage : Nat → List Byte → Memory
  | _, [] => []
  | a, v :: vs => Memory.cell a v (Memory.ofImage (a + 1) vs)

/-- MemRead(a, 1) (spec/00_scope.md R8). A byte address is always in 0..255. -/
def State.memRead (s : State) (a : Byte) : Byte := s.mem.read a.toNat

/-- MemWrite(a, 1, v) (spec/00_scope.md R8). -/
def State.memWrite (s : State) (a v : Byte) : State := { s with mem := s.mem.write a.toNat v }

/-- The bytes of up to `n` cells from address `a` on, ending at address 255: an address above it is never read
(spec/20_memory.md R56). -/
def State.readBytes (s : State) : Nat → Nat → List Byte
  | _, 0 => []
  | a, n + 1 => if a < Config.memSize then s.mem.read a :: s.readBytes (a + 1) n else []

/-- Store bytes from address `a` on; a byte that would lie above address 255 is not stored. -/
def State.storeBytes (s : State) : Nat → List Byte → State
  | _, [] => s
  | a, v :: vs =>
    if a < Config.memSize then State.storeBytes { s with mem := s.mem.write a v } (a + 1) vs else s

/-! ## Registers -/

/-- x[i] (spec/00_scope.md R8). -/
def State.reg (s : State) (i : RegIdx) : Byte := s.regs[i]

/-- x[i] <- v (spec/00_scope.md R8). No register is hard-wired (spec/10_state.md R20). -/
def State.setReg (s : State) (i : RegIdx) (v : Byte) : State := { s with regs := s.regs.set i v }

/-- SP, another name for x[7] (spec/00_scope.md R8; spec/10_state.md R21). -/
def State.sp (s : State) : Byte := s.reg Config.spIndex

/-- SP <- v. -/
def State.setSp (s : State) (v : Byte) : State := s.setReg Config.spIndex v

/-! ## Output, halt and pc -/

/-- emit(v): append the byte to the output stream (spec/10_state.md R31). -/
def State.emit (s : State) (v : Byte) : State := { s with out := s.out ++ [v] }

/-- halt: run <- HALTED (spec/42_handlers.md R152). -/
def State.halt (s : State) : State := { s with run := .halted }

/-- pc <- t (spec/00_scope.md R8). -/
def State.setPc (s : State) (t : Byte) : State := { s with pc := t }

/-- advance(p, n), the sequential pc update (spec/40_cycle.md R105). `s.pc` is the instruction's own address p: no
statement before the advance writes pc. -/
def State.advance (n : Nat) (s : State) : Except FaultKind State :=
  if s.pc.toNat + n + 1 > 255 then .error .memoryOutOfRange
  else .ok (s.setPc (BitVec.ofNat 8 (s.pc.toNat + n + 1)))

/-! ## Faults -/

/-- Take a fault (spec/40_cycle.md R106; spec/60_exceptions.md R208): run <- FAULTED, fault <- (kind, addr = p, opcode = the
byte at p), and nothing else. There is no return from a fault (R210). DEDUCED: the faulting step
answers this as a next state, log 10. -/
def State.raise (k : FaultKind) (s : State) : State :=
  { s with run := .faulted, fault := some { kind := k, addr := s.pc, opcode := s.memRead s.pc } }

/-- Fault commit (R106): the staged writes take effect together, or, after a raise, none of them does. -/
def State.commit (s : State) (staged : Except FaultKind State) : Host.Outcome State Fault Refusal :=
  .next (match staged with
    | .ok t => t
    | .error k => s.raise k)

/-- The numeric code of a fault kind (spec/60_exceptions.md R200). -/
def FaultKind.code : FaultKind → Nat
  | .fatalDecodeError => 1
  | .unsupportedALUOperation => 2
  | .divisionByZero => 3
  | .stackOverflow => 4
  | .stackUnderflow => 5
  | .memoryOutOfRange => 6
  | .registerOutOfRange => 7

/-- The fault a decode error is (spec/40_cycle.md R101, R102): bytes that run past address 255 are MemoryOutOfRange. -/
def decodeFault : DecodeError → FaultKind
  | .fatalDecodeError => .fatalDecodeError
  | .unsupportedALUOperation => .unsupportedALUOperation
  | .truncated => .memoryOutOfRange

end Sys2Proof.Machine
end

