-- ==== Sys2Proof/Machine/Operands.lean ====
section
/-! DEFINITION. Instruction fetch, operand fetch and the register-operand check (spec/40_cycle.md R101 to R103). -/

namespace Sys2Proof.Machine

/-- The bytes the step reads at pc: the opcode byte, then exactly the operand bytes the instruction has, as far as
address 255 (R101, R102). -/
def State.instrBytes (s : State) : List Byte :=
  s.memRead s.pc :: s.readBytes (s.pc.toNat + 1) (operandBytesRead (s.memRead s.pc))

/-- Fetch and decode the instruction at pc, or the fault that this raises (R101, R102). -/
def State.fetch (s : State) : Except FaultKind Instr :=
  match decode s.instrBytes with
  | .ok (i, _) => .ok i
  | .error e => .error (decodeFault e)

/-- A register operand: `assert idx <= 7 else raise RegisterOutOfRange` (R103; spec/30_encoding.md R73). -/
def checkReg (idx : Byte) : Except FaultKind RegIdx :=
  if h : idx.toNat < 8 then .ok ⟨idx.toNat, h⟩ else .error .registerOutOfRange

end Sys2Proof.Machine
end

