-- ==== Sys2Proof/Machine/Absent.lean ====
section
/-! DEFINITION. The meanings of the 13 declared or absent opcodes (spec/43_unimplemented.md R180 to R193): each takes the
FatalDecodeError fault. The spec gives this effect, so each has a next state. -/

namespace Sys2Proof.Machine

/-- `raise FatalDecodeError(addr = p, opcode = op)` (R180): no operand read, no register check, nothing else written. -/
def unknownCommand (s : State) : Host.Outcome State Fault Refusal := s.commit (.error .fatalDecodeError)

/-- PRA (R181). -/
def execPra (s : State) : Host.Outcome State Fault Refusal := unknownCommand s

/-- RET (R182). -/
def execRet (s : State) : Host.Outcome State Fault Refusal := unknownCommand s

/-- INT (R183). -/
def execInt (s : State) : Host.Outcome State Fault Refusal := unknownCommand s

/-- IRET (R184). -/
def execIret (s : State) : Host.Outcome State Fault Refusal := unknownCommand s

/-- JMP (R185). -/
def execJmp (s : State) : Host.Outcome State Fault Refusal := unknownCommand s

/-- JEQ (R186). -/
def execJeq (s : State) : Host.Outcome State Fault Refusal := unknownCommand s

/-- JNE (R187). -/
def execJne (s : State) : Host.Outcome State Fault Refusal := unknownCommand s

/-- JGT (R188). -/
def execJgt (s : State) : Host.Outcome State Fault Refusal := unknownCommand s

/-- JLT (R189). -/
def execJlt (s : State) : Host.Outcome State Fault Refusal := unknownCommand s

/-- JLE (R190). -/
def execJle (s : State) : Host.Outcome State Fault Refusal := unknownCommand s

/-- JGE (R191). -/
def execJge (s : State) : Host.Outcome State Fault Refusal := unknownCommand s

/-- LD (R192). -/
def execLd (s : State) : Host.Outcome State Fault Refusal := unknownCommand s

/-- ST (R193). -/
def execSt (s : State) : Host.Outcome State Fault Refusal := unknownCommand s

end Sys2Proof.Machine
end

