-- ==== Sys2Proof/Machine/Arith.lean ====
section
/-! DEFINITION. The results of the ALU (spec/41_alu.md R120 to R135): operands read as naturals, the exact result, then
mod 256. The core has no flags (spec/10_state.md R33), so no flag computation stands here or anywhere. -/

namespace Sys2Proof.Machine

/-- R121: (x + y) mod 256. -/
def aluAdd (x y : Byte) : Byte := BitVec.ofNat 8 (x.toNat + y.toNat)

/-- R122: the mathematical difference, then mod 256 into 0..255. -/
def aluSub (x y : Byte) : Byte := BitVec.ofInt 8 ((x.toNat : Int) - (y.toNat : Int))

/-- R123: the low 8 bits of the product. -/
def aluMul (x y : Byte) : Byte := BitVec.ofNat 8 (x.toNat * y.toNat)

/-- R124: floor division; a divisor of 0 raises DivisionByZero. -/
def aluDiv (dividend divisor : Byte) : Except FaultKind Byte :=
  if divisor = 0 then .error .divisionByZero else .ok (BitVec.ofNat 8 (dividend.toNat / divisor.toNat))

/-- R124 with the parameter DIV_OPERAND_ORDER: x is x[a] and y is x[b]. -/
def aluDivIn (order : Config.DivOperandOrder) (x y : Byte) : Except FaultKind Byte :=
  match order with
  | .aByB => aluDiv x y
  | .sourceBByA => aluDiv y x

/-- R125: the remainder of floor division; a divisor of 0 raises DivisionByZero. -/
def aluMod (x y : Byte) : Except FaultKind Byte :=
  if y = 0 then .error .divisionByZero else .ok (BitVec.ofNat 8 (x.toNat % y.toNat))

/-- R126: (x + 1) mod 256. -/
def aluInc (x : Byte) : Byte := BitVec.ofNat 8 (x.toNat + 1)

/-- R127: (x - 1) mod 256. -/
def aluDec (x : Byte) : Byte := BitVec.ofInt 8 ((x.toNat : Int) - 1)

/-- R128: bitwise AND. -/
def aluAnd (x y : Byte) : Byte := x &&& y

/-- R129: bitwise inclusive OR. -/
def aluOr (x y : Byte) : Byte := x ||| y

/-- R130: bitwise exclusive OR. -/
def aluXor (x y : Byte) : Byte := x ^^^ y

/-- R131: the complement within 8 bits, 255 - x. -/
def aluNot (x : Byte) : Byte := ~~~x

/-- R132: x shifted left by the natural y, then mod 256; 0 for every count of 8 or more. -/
def aluShl (x y : Byte) : Byte := BitVec.ofNat 8 (x.toNat <<< y.toNat)

/-- R133: the logical right shift; 0 for every count of 8 or more. -/
def aluShr (x y : Byte) : Byte := BitVec.ofNat 8 (x.toNat >>> y.toNat)

end Sys2Proof.Machine
end

