-- ==== Sys2Proof/Machine/Alu.lean ====
section
/-! DEFINITION. The meanings of the 14 ALU instructions (spec/41_alu.md), over the two shapes of R120. -/

namespace Sys2Proof.Machine

/-- The two-register shape (R120): check a, check b, read both, write the result to x[a], advance by 3 bytes. -/
def alu2 (f : Byte → Byte → Except FaultKind Byte) (a b : Byte) (s : State) : Host.Outcome State Fault Refusal :=
  s.commit (do
    let i ← checkReg a
    let j ← checkReg b
    let v ← f (s.reg i) (s.reg j)
    (s.setReg i v).advance 2)

/-- The one-register shape (R120; spec/30_encoding.md R75): check a, write the result to x[a], advance by 2 bytes. -/
def alu1 (f : Byte → Byte) (a : Byte) (s : State) : Host.Outcome State Fault Refusal :=
  s.commit (do
    let i ← checkReg a
    (s.setReg i (f (s.reg i))).advance 1)

/-- ADD (R121). -/
def execAdd (a b : Byte) (s : State) : Host.Outcome State Fault Refusal :=
  alu2 (fun x y => .ok (aluAdd x y)) a b s

/-- SUB (R122). -/
def execSub (a b : Byte) (s : State) : Host.Outcome State Fault Refusal :=
  alu2 (fun x y => .ok (aluSub x y)) a b s

/-- MUL (R123). -/
def execMul (a b : Byte) (s : State) : Host.Outcome State Fault Refusal :=
  alu2 (fun x y => .ok (aluMul x y)) a b s

/-- DIV under a given DIV_OPERAND_ORDER (R124; spec/00_scope.md R5). -/
def execDivIn (order : Config.DivOperandOrder) (a b : Byte) (s : State) : Host.Outcome State Fault Refusal :=
  alu2 (aluDivIn order) a b s

/-- DIV (R124) in the order the spec chooses (D5), log 3. -/
def execDiv (a b : Byte) (s : State) : Host.Outcome State Fault Refusal :=
  execDivIn Config.divOperandOrder a b s

/-- MOD (R125): the divisor is x[b] whatever DIV_OPERAND_ORDER says. -/
def execMod (a b : Byte) (s : State) : Host.Outcome State Fault Refusal :=
  alu2 aluMod a b s

/-- INC (R126). -/
def execInc (a : Byte) (s : State) : Host.Outcome State Fault Refusal := alu1 aluInc a s

/-- DEC (R127). -/
def execDec (a : Byte) (s : State) : Host.Outcome State Fault Refusal := alu1 aluDec a s

/-- CMP (R134): the register checks, then the advance; nothing else is written. -/
def execCmp (a b : Byte) (s : State) : Host.Outcome State Fault Refusal :=
  s.commit (do
    let _ ← checkReg a
    let _ ← checkReg b
    s.advance 2)

/-- AND (R128). -/
def execAnd (a b : Byte) (s : State) : Host.Outcome State Fault Refusal :=
  alu2 (fun x y => .ok (aluAnd x y)) a b s

/-- NOT (R131). -/
def execNot (a : Byte) (s : State) : Host.Outcome State Fault Refusal := alu1 aluNot a s

/-- OR (R129). -/
def execOr (a b : Byte) (s : State) : Host.Outcome State Fault Refusal :=
  alu2 (fun x y => .ok (aluOr x y)) a b s

/-- XOR (R130). -/
def execXor (a b : Byte) (s : State) : Host.Outcome State Fault Refusal :=
  alu2 (fun x y => .ok (aluXor x y)) a b s

/-- SHL (R132). -/
def execShl (a b : Byte) (s : State) : Host.Outcome State Fault Refusal :=
  alu2 (fun x y => .ok (aluShl x y)) a b s

/-- SHR (R133). -/
def execShr (a b : Byte) (s : State) : Host.Outcome State Fault Refusal :=
  alu2 (fun x y => .ok (aluShr x y)) a b s

end Sys2Proof.Machine
end

