-- ==== Sys2Proof/Machine/Handlers.lean ====
section
/-! DEFINITION. The meanings of the seven dispatch-table handlers (spec/42_handlers.md R150 to R163). -/

namespace Sys2Proof.Machine

/-- The stack checks of PUSH and CALL, in their order (R156, R162). -/
def checkPush (s : State) : Except FaultKind Unit :=
  if s.sp = 0 then .error .stackOverflow
  else if s.sp.toNat > Config.stackTop.toNat then .error .stackUnderflow
  else .ok ()

/-- The stack check of POP (R158). -/
def checkPop (s : State) : Except FaultKind Unit :=
  if s.sp.toNat ≥ Config.stackTop.toNat then .error .stackUnderflow else .ok ()

/-- SP <- SP - 1 (R156, R162). -/
def State.decSp (s : State) : State := s.setSp (s.sp - 1)

/-- The address PUSH and CALL store to: SP after the decrement. -/
def State.pushAddr (s : State) : Byte := s.decSp.sp

/-- NOP (R151): advance(p, 0). -/
def execNop (s : State) : Host.Outcome State Fault Refusal := s.commit (s.advance 0)

/-- HLT (R152): run <- HALTED; pc keeps the value p. -/
def execHlt (s : State) : Host.Outcome State Fault Refusal := s.commit (.ok s.halt)

/-- LDI (R154): the immediate byte as is; only the first operand is checked. -/
def execLdi (r imm8 : Byte) (s : State) : Host.Outcome State Fault Refusal :=
  s.commit (do
    let i ← checkReg r
    (s.setReg i imm8).advance 2)

/-- PRN (R155): append x[r] to the output stream. -/
def execPrn (r : Byte) (s : State) : Host.Outcome State Fault Refusal :=
  s.commit (do
    let i ← checkReg r
    (s.emit (s.reg i)).advance 1)

/-- PUSH (R156, R157): x[r] is read after the decrement, so PUSH R7 stores the new SP. -/
def execPush (r : Byte) (s : State) : Host.Outcome State Fault Refusal :=
  s.commit (do
    let i ← checkReg r
    checkPush s
    let s1 := s.decSp
    (s1.memWrite s1.sp (s1.reg i)).advance 1)

/-- POP (R158, R159): x[r] is written before SP is incremented, so POP R7 leaves SP = (v + 1) mod 256. -/
def execPop (r : Byte) (s : State) : Host.Outcome State Fault Refusal :=
  s.commit (do
    let i ← checkReg r
    checkPop s
    let s1 := s.setReg i (s.memRead s.sp)
    (s1.setSp (s1.sp + 1)).advance 1)

/-- CALL (R162, R163): push the address after the CALL, then pc <- x[r], read after the decrement; no advance. -/
def execCall (r : Byte) (s : State) : Host.Outcome State Fault Refusal :=
  s.commit (do
    let i ← checkReg r
    checkPush s
    if s.pc.toNat + 2 > 255 then .error .memoryOutOfRange
    else
      let s1 := s.decSp
      .ok ((s1.memWrite s1.sp (BitVec.ofNat 8 (s.pc.toNat + 2))).setPc (s1.reg i)))

end Sys2Proof.Machine
end

