-- ==== Sys2Proof/Machine/Dispatch.lean ====
section
/-! DEFINITION. One arm per constructor of Instr: EXEC(op) of spec/40_cycle.md R107. -/

namespace Sys2Proof.Machine

/-- The effect of a decoded instruction in a state whose pc is the instruction's address. -/
def exec (i : Instr) (s : State) : Host.Outcome State Fault Refusal :=
  match i with
  | .add a b => Sys2Proof.Machine.execAdd a b s
  | .sub a b => Sys2Proof.Machine.execSub a b s
  | .mul a b => Sys2Proof.Machine.execMul a b s
  | .div a b => Sys2Proof.Machine.execDiv a b s
  | .mod a b => Sys2Proof.Machine.execMod a b s
  | .inc a => Sys2Proof.Machine.execInc a s
  | .dec a => Sys2Proof.Machine.execDec a s
  | .cmp a b => Sys2Proof.Machine.execCmp a b s
  | .and a b => Sys2Proof.Machine.execAnd a b s
  | .not a => Sys2Proof.Machine.execNot a s
  | .or a b => Sys2Proof.Machine.execOr a b s
  | .xor a b => Sys2Proof.Machine.execXor a b s
  | .shl a b => Sys2Proof.Machine.execShl a b s
  | .shr a b => Sys2Proof.Machine.execShr a b s
  | .nop => Sys2Proof.Machine.execNop s
  | .hlt => Sys2Proof.Machine.execHlt s
  | .ldi r imm8 => Sys2Proof.Machine.execLdi r imm8 s
  | .prn r => Sys2Proof.Machine.execPrn r s
  | .push r => Sys2Proof.Machine.execPush r s
  | .pop r => Sys2Proof.Machine.execPop r s
  | .call r => Sys2Proof.Machine.execCall r s
  | .pra => Sys2Proof.Machine.execPra s
  | .ret => Sys2Proof.Machine.execRet s
  | .int => Sys2Proof.Machine.execInt s
  | .iret => Sys2Proof.Machine.execIret s
  | .jmp => Sys2Proof.Machine.execJmp s
  | .jeq => Sys2Proof.Machine.execJeq s
  | .jne => Sys2Proof.Machine.execJne s
  | .jgt => Sys2Proof.Machine.execJgt s
  | .jlt => Sys2Proof.Machine.execJlt s
  | .jle => Sys2Proof.Machine.execJle s
  | .jge => Sys2Proof.Machine.execJge s
  | .ld => Sys2Proof.Machine.execLd s
  | .st => Sys2Proof.Machine.execSt s

end Sys2Proof.Machine
end

