-- ==== Sys2Proof/Machine/Step.lean ====
section
/-! DEFINITION. One step of the engine (spec/40_cycle.md R100, R107), and the placing of an instruction where the step
fetches it. -/

namespace Sys2Proof.Machine

/-- One step: fetch, decode and execute the instruction at pc. It exists only while run = FETCHING (R100); a fault of the
fetch is taken like any other (R106). -/
def step (s : State) : Host.Outcome State Fault Refusal :=
  match s.run with
  | .fetching =>
    match s.fetch with
    | .ok i => exec i s
    | .error k => s.commit (.error k)
  | .halted => .fault .noStepHalted
  | .faulted => .fault .noStepFaulted
  | .executing => .fault .noStepExecuting

/-- `s` with the opcode-table word `w` stored at pc, where the next step fetches (spec/40_cycle.md R101): the load of a
program from outside (spec/70_reset_and_hazards.md R243). Only memory changes. Log 6. -/
def State.withFetchWord (s : State) (nbits w : Nat) : State := s.storeBytes s.pc.toNat (tableBytes nbits w)

end Sys2Proof.Machine
end

