-- ==== Sys2Proof/Machine/Loader.lean ====
section
/-! DEFINITION. The host interface of spec/70_reset_and_hazards.md R240 to R245: loading an image (with REG_INIT as an
argument), the text form of an image, the shown output and the exit status. No step of the core calls any of it. -/

namespace Sys2Proof.Machine

/-- The reset state with a draw of REG_INIT for R0..R6 and an image from LOAD_BASE on (R240, R241; spec/10_state.md R25). -/
def State.resetWith (draw : Fin 7 → Byte) (img : List Byte) : State where
  regs := #v[draw 0, draw 1, draw 2, draw 3, draw 4, draw 5, draw 6, Config.spInit]
  pc := Config.pcInit
  mem := Memory.ofImage Config.loadBase img
  run := .fetching
  fault := none
  out := []

/-- load(img) (R244): an image of more than 256 bytes is refused and no run starts (R242). -/
def load (draw : Fin 7 → Byte) (img : List Byte) : Option State :=
  if img.length ≤ Config.memSize then some (State.resetWith draw img) else none

/-- A text as its characters. -/
abbrev Text := List Char

/-- One character of a binary line. -/
def bitOf (c : Char) : Option Nat := if c = '0' then some 0 else if c = '1' then some 1 else none

/-- The value of binary digits, the leftmost the most significant (spec/30_encoding.md R86, D18), from an accumulator. -/
def bitsValue : Nat → Text → Option Nat
  | acc, [] => some acc
  | acc, c :: cs =>
    match bitOf c with
    | some b => bitsValue (2 * acc + b) cs
    | none => none

/-- A blank line: no character but spaces, tabs and carriage returns. DESIGN CHOICE, log 7. -/
def isBlankLine (l : Text) : Bool := l.all (fun c => c == ' ' || c == '\t' || c == '\r')

/-- A comment line: its first character is '#' (R243). DESIGN CHOICE, log 7. -/
def isCommentLine : Text → Bool
  | c :: _ => c == '#'
  | [] => false

/-- One image line (R243; spec/30_encoding.md R86): the bytes it gives (none for a comment or a blank line), or no result
for a line in none of the listed forms, which is refused (D24). -/
def parseLine (l : Text) : Option (List Byte) :=
  if isCommentLine l || isBlankLine l then some []
  else if l.length = 8 then (bitsValue 0 l).map (fun v => [BitVec.ofNat 8 v])
  else none

/-- The bytes of an image's lines in file order (R241, R243), or no result if one line is refused. -/
def parseLines : List Text → Option (List Byte)
  | [] => some []
  | l :: ls =>
    match parseLine l, parseLines ls with
    | some v, some vs => some (v ++ vs)
    | _, _ => none

/-- The lines of a text, cut at each line feed. -/
def linesOf : Text → List Text
  | [] => [[]]
  | c :: cs =>
    if c = '\n' then [] :: linesOf cs
    else match linesOf cs with
      | l :: ls => (c :: l) :: ls
      | [] => [[c]]

/-- Load an image from its text form; no result where the image is refused and no run starts (R242, R243). -/
def loadText (draw : Fin 7 → Byte) (t : Text) : Option State := (parseLines (linesOf t)).bind (load draw)

/-- A byte as an image line: 8 binary digits, bit 7 first (spec/30_encoding.md R86). -/
def lineOfByte (v : Byte) : Text :=
  [7, 6, 5, 4, 3, 2, 1, 0].map (fun k => if v.getLsbD k then '1' else '0')

/-- What the host shows: each output byte in decimal, one line each (spec/10_state.md R31). -/
def State.outputLines (s : State) : List Text := s.out.map (fun v => Nat.toDigits 10 v.toNat)

/-- The exit status of a run (R245): 0 when HALTED, 1 when FAULTED, none while it goes on. -/
def State.exitStatus (s : State) : Option Nat :=
  match s.run with
  | .halted => some 0
  | .faulted => some 1
  | .fetching | .executing => none

end Sys2Proof.Machine
end

