-- ==== Sys2Proof/Machine/Asm.lean ====
section
/-! DEFINITION. The assembler text of spec/30_encoding.md R85: a mnemonic of R78 or R79, then R0..R7 and immediates, with
spaces or commas between. No step of the core calls any of it. -/

namespace Sys2Proof.Machine

/-- The mnemonics of the two tables (R78, R79), letter for letter. -/
def mnemonics : List (Text × OpName) :=
  [(['A', 'D', 'D'], .add), (['S', 'U', 'B'], .sub), (['M', 'U', 'L'], .mul), (['D', 'I', 'V'], .div),
   (['M', 'O', 'D'], .mod), (['I', 'N', 'C'], .inc), (['D', 'E', 'C'], .dec), (['C', 'M', 'P'], .cmp),
   (['A', 'N', 'D'], .and), (['N', 'O', 'T'], .not), (['O', 'R'], .or), (['X', 'O', 'R'], .xor),
   (['S', 'H', 'L'], .shl), (['S', 'H', 'R'], .shr), (['N', 'O', 'P'], .nop), (['H', 'L', 'T'], .hlt),
   (['L', 'D', 'I'], .ldi), (['P', 'R', 'N'], .prn), (['P', 'U', 'S', 'H'], .push), (['P', 'O', 'P'], .pop),
   (['C', 'A', 'L', 'L'], .call)]

/-- The words of a line, cut at spaces and commas; empty words are dropped. DESIGN CHOICE, log 8. -/
def wordsOf : Text → Text → List Text
  | cur, [] => if cur = [] then [] else [cur.reverse]
  | cur, c :: cs =>
    if c = ' ' ∨ c = ',' then
      if cur = [] then wordsOf [] cs else cur.reverse :: wordsOf [] cs
    else wordsOf (c :: cur) cs

/-- The value of a digit character: decimal, or hexadecimal with letters of either case (DESIGN CHOICE, log 8). -/
def digitValue (c : Char) : Option Nat :=
  if '0'.toNat ≤ c.toNat ∧ c.toNat ≤ '9'.toNat then some (c.toNat - '0'.toNat)
  else if 'a'.toNat ≤ c.toNat ∧ c.toNat ≤ 'f'.toNat then some (c.toNat - 'a'.toNat + 10)
  else if 'A'.toNat ≤ c.toNat ∧ c.toNat ≤ 'F'.toNat then some (c.toNat - 'A'.toNat + 10)
  else none

/-- The value of digits in a base, from an accumulator. -/
def digitsValue (base : Nat) : Nat → Text → Option Nat
  | acc, [] => some acc
  | acc, c :: cs =>
    match digitValue c with
    | some d => if d < base then digitsValue base (base * acc + d) cs else none
    | none => none

/-- A register operand `R0` to `R7` (R85). -/
def parseReg : Text → Option Byte
  | ['R', d] =>
    match digitValue d with
    | some v => if v < 8 then some (BitVec.ofNat 8 v) else none
    | none => none
  | _ => none

/-- An immediate in decimal, or in hexadecimal with `0x` (R85), of one byte. -/
def parseImm (t : Text) : Option Byte :=
  let value := match t with
    | '0' :: 'x' :: d :: ds => digitsValue 16 0 (d :: ds)
    | d :: ds => digitsValue 10 0 (d :: ds)
    | [] => none
  match value with
  | some v => if v < 256 then some (BitVec.ofNat 8 v) else none
  | none => none

/-- The operand bytes of a mnemonic's words, in the order of the text (R85). -/
def parseOperands : OpName → List Text → Option (List Byte)
  | .ldi, [r, v] =>
    match parseReg r, parseImm v with
    | some a, some b => some [a, b]
    | _, _ => none
  | .ldi, _ => none
  | _, [] => some []
  | _, [r] => (parseReg r).map (fun a => [a])
  | _, [r, q] =>
    match parseReg r, parseReg q with
    | some a, some b => some [a, b]
    | _, _ => none
  | _, _ => none

/-- Assemble one line: the instruction whose opcode is the mnemonic's and whose operand bytes are exactly the line's
(R85: "Operand order in the text is the order of the bytes"). -/
def assemble (line : Text) : Option Instr :=
  match wordsOf [] line with
  | [] => none
  | w :: ws =>
    match mnemonics.lookup w with
    | none => none
    | some name =>
      match parseOperands name ws with
      | none => none
      | some bytes =>
        match takeOperands name bytes with
        | .ok (i, []) => some i
        | _ => none

end Sys2Proof.Machine
end

