-- ==== Sys2Proof/Safety.lean ====
section
/-! DEFINITION. The terms in which claims are made: what taking a fault and completing an instruction look like from outside
(read through registers, cells and fields, not through the model's operations), the invariant of every instruction
boundary, the fault priority of spec/60_exceptions.md R206 read from raw bytes, and legal opcode maps. -/

namespace Sys2Proof

/-- The number of operand bytes the format of a slot has (spec/30_encoding.md R72, R82). -/
def formatOperands : OpName → Nat
  | .add | .sub | .mul | .div | .mod | .cmp | .and | .or | .xor | .shl | .shr | .ldi | .ld | .st => 2
  | .inc | .dec | .not | .prn | .push | .pop | .call
  | .pra | .int | .jmp | .jeq | .jne | .jgt | .jlt | .jle | .jge => 1
  | .nop | .hlt | .ret | .iret => 0

/-- A legal OPCODE_MAP (spec/30_encoding.md R81): no two slots share a byte, field AA is the operand count, and bit 5 is
set exactly for the ALU operations. -/
structure OpcodeMap.Legal (m : OpcodeMap) : Prop where
  distinct : ∀ n k : OpName, m n = m k → n = k
  operandField : ∀ n : OpName, operandCountField (m n) = formatOperands n
  aluField : ∀ n : OpName, aluBit (m n) = true ↔ n ∈ aluNames

namespace Machine

/-- The outcome is the fault `k` taken in `s`: run = FAULTED, the record (k, pc, byte at pc), every other field as in `s`
(spec/40_cycle.md R106; spec/60_exceptions.md R208). -/
def FaultsWith (o : Host.Outcome State Fault Refusal) (s : State) (k : FaultKind) : Prop :=
  o = .next { regs := s.regs, pc := s.pc, mem := s.mem, out := s.out, run := .faulted,
              fault := some { kind := k, addr := s.pc, opcode := s.mem.read s.pc.toNat } }

/-- `t` keeps every register of `s` not in `regs`, every cell not in `addrs`, the run state and the fault record. -/
def Keeps (s t : State) (regs : List RegIdx) (addrs : List Nat) : Prop :=
  (∀ j : RegIdx, j ∉ regs → t.reg j = s.reg j) ∧
  (∀ a : Nat, a ∉ addrs → t.mem.read a = s.mem.read a) ∧
  t.run = s.run ∧ t.fault = s.fault

/-- The rule of a two-register instruction (spec/41_alu.md R120): an index above 7, of either operand and at any pc, is
RegisterOutOfRange; else no result is DivisionByZero; else p >= 253 is MemoryOutOfRange; else x[a] becomes the result, pc
the next instruction, and nothing else changes. -/
def TwoRegisterRule (run : Byte → Byte → State → Host.Outcome State Fault Refusal)
    (result : Nat → Nat → Option Nat) : Prop :=
  (∀ (a b : Byte) (s : State), 8 ≤ a.toNat ∨ 8 ≤ b.toNat → FaultsWith (run a b s) s .registerOutOfRange) ∧
  (∀ (i j : RegIdx) (s : State), result (s.reg i).toNat (s.reg j).toNat = none →
    FaultsWith (run (regByte i) (regByte j) s) s .divisionByZero) ∧
  (∀ (i j : RegIdx) (s : State) (v : Nat), result (s.reg i).toNat (s.reg j).toNat = some v →
    (253 ≤ s.pc.toNat → FaultsWith (run (regByte i) (regByte j) s) s .memoryOutOfRange) ∧
    (s.pc.toNat ≤ 252 → ∃ t, run (regByte i) (regByte j) s = .next t ∧
      (t.reg i).toNat = v ∧ t.pc.toNat = s.pc.toNat + 3 ∧ t.out = s.out ∧ Keeps s t [i] []))

/-- The rule of a one-register ALU instruction (spec/41_alu.md R120; spec/30_encoding.md R75). -/
def OneRegisterRule (run : Byte → State → Host.Outcome State Fault Refusal) (result : Nat → Nat) : Prop :=
  (∀ (a : Byte) (s : State), 8 ≤ a.toNat → FaultsWith (run a s) s .registerOutOfRange) ∧
  (∀ (i : RegIdx) (s : State),
    (254 ≤ s.pc.toNat → FaultsWith (run (regByte i) s) s .memoryOutOfRange) ∧
    (s.pc.toNat ≤ 253 → ∃ t, run (regByte i) s = .next t ∧
      (t.reg i).toNat = result (s.reg i).toNat ∧ t.pc.toNat = s.pc.toNat + 2 ∧ t.out = s.out ∧ Keeps s t [i] []))

/-- The bytes from pc on are those of `i`, all of them within addresses 0..255. -/
def Spells (s : State) (i : Instr) : Prop :=
  s.pc.toNat + (encode i).length ≤ 256 ∧
  ∀ (k : Nat) (h : k < (encode i).length), s.mem.read (s.pc.toNat + k) = (encode i)[k]

/-- What holds at every instruction boundary: memory in canonical form; EXECUTING not seen (spec/10_state.md R28); a fault
record exactly when FAULTED, naming the pc and the byte at it (R29, spec/60_exceptions.md R208). -/
structure State.Inv (s : State) : Prop where
  memWf : s.mem.wf = true
  notExecuting : s.run ≠ .executing
  recordIffFaulted : s.fault.isSome = true ↔ s.run = .faulted
  recordNamesPc : ∀ r, s.fault = some r → r.addr = s.pc ∧ r.opcode = s.mem.read s.pc.toNat

/-- The opcode bytes of the two tables (spec/30_encoding.md R78, R79), as numbers. -/
def tableOpcodes : List Nat :=
  [0xA0, 0xA1, 0xA2, 0xA3, 0xA4, 0x65, 0x66, 0xA7, 0xA8, 0x69, 0xAA, 0xAB, 0xAC, 0xAD,
   0x00, 0x01, 0x82, 0x47, 0x45, 0x46, 0x50]

/-- The opcode bytes whose first operand byte is a register index (spec/30_encoding.md R72): all but NOP and HLT. -/
def firstIsRegister (op : Nat) : Bool := op != 0x00 && op != 0x01

/-- The opcode bytes whose second operand byte is a register index: format F2RR (spec/30_encoding.md R72). -/
def secondIsRegister (op : Nat) : Bool :=
  [0xA0, 0xA1, 0xA2, 0xA3, 0xA4, 0xA7, 0xA8, 0xAA, 0xAB, 0xAC, 0xAD].contains op

/-- The value of the register an operand byte names; 0 where it names none. -/
def State.regOf (s : State) (idx : Byte) : Byte := if h : idx.toNat < 8 then s.reg ⟨idx.toNat, h⟩ else 0

/-- The first check of spec/60_exceptions.md R206 that fails for the instruction at pc, in the order of that rule, or none.
For DIV and MOD the divisor is x[b] (A_BY_B; spec/41_alu.md R124, R125). -/
def State.firstFault (s : State) : Option FaultKind :=
  let p := s.pc.toNat
  let op := (s.mem.read p).toNat
  let n := op / 64
  let a := s.mem.read (p + 1)
  let b := s.mem.read (p + 2)
  let sp := (s.reg 7).toNat
  if op ∉ tableOpcodes then
    some (if op / 32 % 2 = 1 then .unsupportedALUOperation else .fatalDecodeError)
  else if p + n > 255 then some .memoryOutOfRange
  else if firstIsRegister op = true ∧ 8 ≤ a.toNat then some .registerOutOfRange
  else if secondIsRegister op = true ∧ 8 ≤ b.toNat then some .registerOutOfRange
  else if op ∈ [0xA3, 0xA4] ∧ s.regOf b = 0 then some .divisionByZero
  else if op ∈ [0x45, 0x50] ∧ sp = 0 then some .stackOverflow
  else if op ∈ [0x45, 0x50] ∧ sp > 0xF4 then some .stackUnderflow
  else if op = 0x46 ∧ sp ≥ 0xF4 then some .stackUnderflow
  else if op = 0x50 ∧ p + 2 > 255 then some .memoryOutOfRange
  else if op ∉ [0x01, 0x50] ∧ p + n + 1 > 255 then some .memoryOutOfRange
  else none

/-- The registers the instruction at pc may write (spec/41_alu.md R120, R134; spec/42_handlers.md R150 to R163): its first
operand for an ALU operation other than CMP and for LDI; R7 for PUSH and CALL; both for POP; none for the rest. -/
def State.mayWrite (s : State) (j : RegIdx) : Prop :=
  let op := (s.mem.read s.pc.toNat).toNat
  (op ∈ [0xA0, 0xA1, 0xA2, 0xA3, 0xA4, 0x65, 0x66, 0xA8, 0x69, 0xAA, 0xAB, 0xAC, 0xAD, 0x82, 0x46] ∧
      s.mem.read (s.pc.toNat + 1) = regByte j) ∨
  (op ∈ [0x45, 0x46, 0x50] ∧ j = 7)

end Machine

end Sys2Proof
end

