-- ==== Sys2Proof/Certificates/Slice0/Obligations.lean ====
section
/-! DEFINITION. The statements for the provers. Each docstring names the rule of spec/ it formalises. Terms used:
FaultsWith, Keeps, TwoRegisterRule, OneRegisterRule, Spells, State.Inv, State.firstFault, State.mayWrite (Safety.lean).
D<n> names a decision of spec/92_eei_decisions.md, the spec's own choice where its source is silent, that a statement rests
on. Every opcode byte but those of NOP and RET rests on D1 (log 2); that a fault is a next state is log 10. -/

open Sys2Proof Sys2Proof.Machine

/-! ## Reset and the loader -/

/-- R24, R27, R28, R29, R31, R37: the values the spec gives for reset. R0..R6 are left open (R25). That every cell reads 0
rests on R241's decision D11 (log 11) and on no image being placed at reset (log 6). -/
def Obligations.ResetLeavesStackTopAndPcZero : Prop :=
  State.reset.sp = 0xF4 ∧ State.reset.pc = 0 ∧ State.reset.run = .fetching ∧ State.reset.fault = none ∧
  State.reset.out = [] ∧ ∀ a : Nat, State.reset.mem.read a = 0

/-- R241 (D11; with R25, R240): an image of up to 256 bytes lies from address 0 on, every other cell holds 0, and R0..R6 hold
whatever was drawn. -/
def Obligations.LoadPlacesImageAndZeroesTheRest : Prop :=
  ∀ (draw : Fin 7 → Byte) (img : List Byte), img.length ≤ 256 → ∃ s, load draw img = some s ∧
    (∀ (i : Nat) (h : i < img.length), s.mem.read i = img[i]) ∧
    (∀ a : Nat, img.length ≤ a → s.mem.read a = 0) ∧
    (∀ i : Fin 7, s.reg i.castSucc = draw i) ∧
    s.sp = 0xF4 ∧ s.pc = 0 ∧ s.run = .fetching ∧ s.fault = none ∧ s.out = []

/-- R242 (D24): an image of more than 256 bytes is refused; any shorter one is loaded, the stack area or not. -/
def Obligations.OversizedImageIsRefused : Prop :=
  ∀ (draw : Fin 7 → Byte) (img : List Byte), (load draw img = none ↔ 256 < img.length)

/-- R86, R243 (D18, D24; what is blank and what is a comment: log 7): each line of 8 binary digits gives its byte, bit 7
first, in file order; comment lines and blank lines give nothing, wherever they stand; a list with any other line is
refused, a line of 8 characters not all 0 or 1 among them. -/
def Obligations.ImageLinesGiveTheirBytes : Prop :=
  (∀ bytes : List Byte, parseLines (bytes.map lineOfByte) = some bytes) ∧
  (∀ (v : Byte) (ls : List Text), parseLines (lineOfByte v :: ls) = (parseLines ls).map (v :: ·)) ∧
  (∀ (l : Text) (ls : List Text), parseLines (('#' :: l) :: ls) = parseLines ls) ∧
  (∀ (l : Text) (ls : List Text), (∀ c ∈ l, c ∈ [' ', '\t', '\r']) → parseLines (l :: ls) = parseLines ls) ∧
  (∀ (l : Text) (ls : List Text), l ∈ ls → l.head? ≠ some '#' → (∃ c ∈ l, c ∉ [' ', '\t', '\r']) →
    (l.length ≠ 8 ∨ ∃ c ∈ l, c ≠ '0' ∧ c ≠ '1') → parseLines ls = none)

/-- R245 (D21): exit status 0 for a HALTED run and 1 for a FAULTED one; a run that goes on has none. -/
def Obligations.ExitStatusZeroOnHaltOneOnFault : Prop :=
  ∀ s : State, (s.run = .halted → s.exitStatus = some 0) ∧ (s.run = .faulted → s.exitStatus = some 1) ∧
    (s.run = .fetching → s.exitStatus = none)

/-! ## Encoding -/

/-- R70, R72: under every legal opcode map, whatever bytes follow, decoding an encoded instruction gives it back with the
bytes that followed, every operand at every value. -/
def Obligations.DecodeOfEncodeIsIdentity : Prop :=
  ∀ (m : OpcodeMap), m.Legal → ∀ (i : Instr) (rest : List Byte), decodeIn m (encodeIn m i ++ rest) = .ok (i, rest)

/-- R70, R72: an instruction that the decoder reads is spelled by exactly its encoding, under every opcode map. -/
def Obligations.DecodedBytesAreTheEncoding : Prop :=
  ∀ (m : OpcodeMap) (bytes rest : List Byte) (i : Instr), decodeIn m bytes = .ok (i, rest) → bytes = encodeIn m i ++ rest

/-- R81, which the spec derives: the adopted map is legal, bit 4 is set exactly for CALL, RET, INT, IRET and the jumps, and NOP and RET have the
source's values. -/
def Obligations.AdoptedOpcodesFollowTheStructuralRules : Prop :=
  OpcodeMap.Legal opcodeMap ∧ opcodeMap .nop = 0 ∧ opcodeMap .ret = 0b00010001 ∧
  ∀ n : OpName, pcBit (opcodeMap n) = true ↔
    n ∈ [OpName.call, .ret, .int, .iret, .jmp, .jeq, .jne, .jgt, .jlt, .jle, .jge]

/-- R80, which the spec derives: of the 256 bytes, 14 are ALU operations, 7 handlers, 114 UnsupportedALUOperation (all with bit 5 set) and 121
FatalDecodeError (13 named slots and 108 others, all with bit 5 clear). That a named slot classifies as itself and takes its
fault when it executes is log 4. -/
def Obligations.EveryByteHasOneOfFourOutcomes : Prop :=
  let bytes : List Byte := (List.range 256).map (BitVec.ofNat 8)
  let named (names : List OpName) (op : Byte) : Bool :=
    match classify op with
    | .ok n => names.contains n
    | .error _ => false
  let rejected (e : DecodeError) (op : Byte) : Bool :=
    match classify op with
    | .ok _ => false
    | .error d => d == e
  bytes.countP (named aluNames) = 14 ∧ bytes.countP (named dispatchNames) = 7 ∧ bytes.countP (named absentNames) = 13 ∧
  bytes.countP (fun op => rejected .unsupportedALUOperation op && aluBit op) = 114 ∧
  bytes.countP (fun op => rejected .fatalDecodeError op && !aluBit op) = 108

/-- R78, R79, R82: words written out from the tables decode to the instructions they stand for. That RET and PRA decode to
instructions of their own, whose execution is the FatalDecodeError R82 gives them, is log 4; the byte order of an
opcode-table word is log 6. -/
def Obligations.SampleWordsDecode : Prop :=
  decode [0b10100000, 0, 1] = .ok (.add 0 1, []) ∧
  decode [0b01100101, 3] = .ok (.inc 3, []) ∧
  decode [0b10101101, 0, 1] = .ok (.shr 0 1, []) ∧
  decode [0b10000010, 0, 8] = .ok (.ldi 0 8, []) ∧
  decode [0b01010000, 1] = .ok (.call 1, []) ∧
  decode [0b00000000] = .ok (.nop, []) ∧
  decode [0b00010001] = .ok (.ret, []) ∧
  decodeTableWord 24 0x0100A3 = some (.div 0 1) ∧
  decodeTableWord 16 0x0248 = some .pra

/-! ## The step -/

/-- R100, R107: while running, a step whose bytes at pc are those of an instruction is that instruction's execution. -/
def Obligations.StepRunsTheInstructionAtPc : Prop :=
  ∀ (s : State) (i : Instr), s.run = .fetching → Spells s i → step s = exec i s

/-- withFetchWord (log 6): an opcode-table word placed at pc, where its three bytes fit, is the instruction the next step
runs, in canonical memory. -/
def Obligations.PlacedTableWordIsTheNextInstruction : Prop :=
  ∀ (s : State) (nbits w : Nat) (i : Instr), s.run = .fetching → s.mem.wf = true → s.pc.toNat ≤ 253 →
    decodeTableWord nbits w = some i → step (s.withFetchWord nbits w) = exec i (s.withFetchWord nbits w)

/-- R100: a step exists exactly while the core runs; in every other run state `step` stops, by name. -/
def Obligations.StepExistsExactlyWhileRunning : Prop :=
  ∀ s : State, (s.run = .fetching → ∃ t, step s = .next t) ∧ (s.run = .halted → step s = .fault .noStepHalted) ∧
    (s.run = .faulted → step s = .fault .noStepFaulted) ∧ (s.run = .executing → step s = .fault .noStepExecuting)

/-- R101: a byte of neither table faults at classification, by its bit 5, whatever follows and at every pc. -/
def Obligations.OpcodeOutsideTheTablesFaults : Prop :=
  ∀ s : State, s.run = .fetching → (s.mem.read s.pc.toNat).toNat ∉ tableOpcodes →
    FaultsWith (step s) s
      (if (s.mem.read s.pc.toNat).getLsbD 5 then .unsupportedALUOperation else .fatalDecodeError)

/-- R102 (D8): an instruction whose operand bytes would run past address 255 faults with MemoryOutOfRange. -/
def Obligations.OperandBytesPastTheEndFault : Prop :=
  ∀ s : State, s.run = .fetching → (s.mem.read s.pc.toNat).toNat ∈ tableOpcodes →
    255 < s.pc.toNat + (s.mem.read s.pc.toNat).toNat / 64 → FaultsWith (step s) s .memoryOutOfRange

/-- R73, R103 (D6): while running, an instruction with a register operand above 7, and no other, takes RegisterOutOfRange, before
every other check and effect, at every pc. -/
def Obligations.IllFormedInstructionsAreRegisterOutOfRange : Prop :=
  ∀ (i : Instr) (s : State), s.run = .fetching → (FaultsWith (exec i s) s .registerOutOfRange ↔ i.wellFormed = false)

/-! ## The ALU -/

/-- R121. -/
def Obligations.AddWrapsModulo256 : Prop :=
  (∀ (a b : Byte) (rest : List Byte), decode (0xA0 :: a :: b :: rest) = .ok (.add a b, rest)) ∧
  TwoRegisterRule (fun a b => exec (.add a b)) (fun x y => some ((x + y) % 256))

/-- R122: the mathematical difference, then mod 256. -/
def Obligations.SubWrapsModulo256 : Prop :=
  (∀ (a b : Byte) (rest : List Byte), decode (0xA1 :: a :: b :: rest) = .ok (.sub a b, rest)) ∧
  TwoRegisterRule (fun a b => exec (.sub a b)) (fun x y => some ((x + 256 - y) % 256))

/-- R123. -/
def Obligations.MulKeepsTheLowByte : Prop :=
  (∀ (a b : Byte) (rest : List Byte), decode (0xA2 :: a :: b :: rest) = .ok (.mul a b, rest)) ∧
  TwoRegisterRule (fun a b => exec (.mul a b)) (fun x y => some (x * y % 256))

/-- R124 (D5, log 3): the core divides in the order A_BY_B; under the parameter value SOURCE_B_BY_A the divisor is x[a]. -/
def Obligations.DivFloorsInEitherOperandOrder : Prop :=
  (∀ (a b : Byte) (rest : List Byte), decode (0xA3 :: a :: b :: rest) = .ok (.div a b, rest)) ∧
  TwoRegisterRule (fun a b => exec (.div a b)) (fun x y => if y = 0 then none else some (x / y)) ∧
  TwoRegisterRule (execDivIn .sourceBByA) (fun x y => if x = 0 then none else some (y / x))

/-- R125. -/
def Obligations.ModLeavesTheRemainder : Prop :=
  (∀ (a b : Byte) (rest : List Byte), decode (0xA4 :: a :: b :: rest) = .ok (.mod a b, rest)) ∧
  TwoRegisterRule (fun a b => exec (.mod a b)) (fun x y => if y = 0 then none else some (x % y))

/-- R126. -/
def Obligations.IncWrapsModulo256 : Prop :=
  (∀ (a : Byte) (rest : List Byte), decode (0x65 :: a :: rest) = .ok (.inc a, rest)) ∧
  OneRegisterRule (fun a => exec (.inc a)) (fun x => (x + 1) % 256)

/-- R127. -/
def Obligations.DecWrapsModulo256 : Prop :=
  (∀ (a : Byte) (rest : List Byte), decode (0x66 :: a :: rest) = .ok (.dec a, rest)) ∧
  OneRegisterRule (fun a => exec (.dec a)) (fun x => (x + 255) % 256)

/-- R128. -/
def Obligations.AndIsBitwise : Prop :=
  (∀ (a b : Byte) (rest : List Byte), decode (0xA8 :: a :: b :: rest) = .ok (.and a b, rest)) ∧
  TwoRegisterRule (fun a b => exec (.and a b)) (fun x y => some (x &&& y))

/-- R129. -/
def Obligations.OrIsBitwise : Prop :=
  (∀ (a b : Byte) (rest : List Byte), decode (0xAA :: a :: b :: rest) = .ok (.or a b, rest)) ∧
  TwoRegisterRule (fun a b => exec (.or a b)) (fun x y => some (x ||| y))

/-- R130. -/
def Obligations.XorIsBitwise : Prop :=
  (∀ (a b : Byte) (rest : List Byte), decode (0xAB :: a :: b :: rest) = .ok (.xor a b, rest)) ∧
  TwoRegisterRule (fun a b => exec (.xor a b)) (fun x y => some (x ^^^ y))

/-- R131: 255 - x. -/
def Obligations.NotComplementsWithinEightBits : Prop :=
  (∀ (a : Byte) (rest : List Byte), decode (0x69 :: a :: rest) = .ok (.not a, rest)) ∧
  OneRegisterRule (fun a => exec (.not a)) (fun x => 255 - x)

/-- R132: (x << y) mod 256, and 0 for every count of 8 or more. -/
def Obligations.ShlSaturatesToZero : Prop :=
  (∀ (a b : Byte) (rest : List Byte), decode (0xAC :: a :: b :: rest) = .ok (.shl a b, rest)) ∧
  TwoRegisterRule (fun a b => exec (.shl a b)) (fun x y => some (if 8 ≤ y then 0 else x * 2 ^ y % 256))

/-- R133 (D16): x >> y, zeros entering, and 0 for every count of 8 or more. -/
def Obligations.ShrIsLogicalAndSaturatesToZero : Prop :=
  (∀ (a b : Byte) (rest : List Byte), decode (0xAD :: a :: b :: rest) = .ok (.shr a b, rest)) ∧
  TwoRegisterRule (fun a b => exec (.shr a b)) (fun x y => some (if 8 ≤ y then 0 else x / 2 ^ y))

/-- R134 (D17): CMP checks both indices and then only advances pc. -/
def Obligations.CmpOnlyAdvancesPc : Prop :=
  (∀ (a b : Byte) (rest : List Byte), decode (0xA7 :: a :: b :: rest) = .ok (.cmp a b, rest)) ∧
  (∀ (a b : Byte) (s : State), 8 ≤ a.toNat ∨ 8 ≤ b.toNat → FaultsWith (exec (.cmp a b) s) s .registerOutOfRange) ∧
  (∀ (i j : RegIdx) (s : State),
    (253 ≤ s.pc.toNat → FaultsWith (exec (.cmp (regByte i) (regByte j)) s) s .memoryOutOfRange) ∧
    (s.pc.toNat ≤ 252 → ∃ t, exec (.cmp (regByte i) (regByte j)) s = .next t ∧
      t.pc.toNat = s.pc.toNat + 3 ∧ t.out = s.out ∧ Keeps s t [] []))

/-- R135, the law of DIV and MOD: q = d * (q div d) + (q % d) and q % d < d, for every divisor other than 0. -/
def Obligations.DivAndModSatisfyTheDivisionLaw : Prop :=
  ∀ (i j : RegIdx) (s : State), s.pc.toNat ≤ 252 → s.reg j ≠ 0 → ∃ t u,
    exec (.div (regByte i) (regByte j)) s = .next t ∧ exec (.mod (regByte i) (regByte j)) s = .next u ∧
    (s.reg i).toNat = (s.reg j).toNat * (t.reg i).toNat + (u.reg i).toNat ∧ (u.reg i).toNat < (s.reg j).toNat

/-! ## The handlers -/

/-- R151 (D3): NOP only advances pc by 1, and faults at address 255. -/
def Obligations.NopOnlyAdvancesPc : Prop :=
  (∀ rest : List Byte, decode (0x00 :: rest) = .ok (.nop, rest)) ∧
  ∀ s : State,
    (s.pc.toNat = 255 → FaultsWith (exec .nop s) s .memoryOutOfRange) ∧
    (s.pc.toNat ≤ 254 → ∃ t, exec .nop s = .next t ∧ t.pc.toNat = s.pc.toNat + 1 ∧ t.out = s.out ∧ Keeps s t [] [])

/-- R152 (D23): HLT sets run to HALTED; pc, registers, memory, output and the fault record stay, at every pc. -/
def Obligations.HltHaltsAndKeepsPc : Prop :=
  (∀ rest : List Byte, decode (0x01 :: rest) = .ok (.hlt, rest)) ∧
  ∀ s : State, ∃ t, exec .hlt s = .next t ∧ t.run = .halted ∧ t.pc = s.pc ∧ t.out = s.out ∧ t.fault = s.fault ∧
    (∀ j : RegIdx, t.reg j = s.reg j) ∧ (∀ a : Nat, t.mem.read a = s.mem.read a)

/-- R154: LDI stores its immediate as is, any value, any of R0..R7; an index above 7 faults, whatever the immediate. -/
def Obligations.LdiLoadsTheImmediate : Prop :=
  (∀ (r v : Byte) (rest : List Byte), decode (0x82 :: r :: v :: rest) = .ok (.ldi r v, rest)) ∧
  (∀ (r v : Byte) (s : State), 8 ≤ r.toNat → FaultsWith (exec (.ldi r v) s) s .registerOutOfRange) ∧
  (∀ (i : RegIdx) (v : Byte) (s : State),
    (253 ≤ s.pc.toNat → FaultsWith (exec (.ldi (regByte i) v) s) s .memoryOutOfRange) ∧
    (s.pc.toNat ≤ 252 → ∃ t, exec (.ldi (regByte i) v) s = .next t ∧
      t.reg i = v ∧ t.pc.toNat = s.pc.toNat + 3 ∧ t.out = s.out ∧ Keeps s t [i] []))

/-- R155 (D22): PRN appends the register's value to the output; a PRN that faults emits nothing. -/
def Obligations.PrnAppendsTheRegister : Prop :=
  (∀ (r : Byte) (rest : List Byte), decode (0x47 :: r :: rest) = .ok (.prn r, rest)) ∧
  (∀ (r : Byte) (s : State), 8 ≤ r.toNat → FaultsWith (exec (.prn r) s) s .registerOutOfRange) ∧
  (∀ (i : RegIdx) (s : State),
    (254 ≤ s.pc.toNat → FaultsWith (exec (.prn (regByte i)) s) s .memoryOutOfRange) ∧
    (s.pc.toNat ≤ 253 → ∃ t, exec (.prn (regByte i)) s = .next t ∧
      t.out = s.out ++ [s.reg i] ∧ t.pc.toNat = s.pc.toNat + 2 ∧ Keeps s t [] []))

/-- R156, R157 (D9, D25): PUSH stores x[r], read after the decrement, at SP - 1. The store address is `s.pushAddr`, the meaning's own.
Memory is canonical (State.Inv), or a byte written might not be read back. -/
def Obligations.PushStoresBelowTheStackPointer : Prop :=
  (∀ (r : Byte) (rest : List Byte), decode (0x45 :: r :: rest) = .ok (.push r, rest)) ∧
  (∀ (r : Byte) (s : State), 8 ≤ r.toNat → FaultsWith (exec (.push r) s) s .registerOutOfRange) ∧
  (∀ (i : RegIdx) (s : State),
    (s.sp = 0 → FaultsWith (exec (.push (regByte i)) s) s .stackOverflow) ∧
    (0xF4 < s.sp.toNat → FaultsWith (exec (.push (regByte i)) s) s .stackUnderflow) ∧
    (0 < s.sp.toNat → s.sp.toNat ≤ 0xF4 →
      (254 ≤ s.pc.toNat → FaultsWith (exec (.push (regByte i)) s) s .memoryOutOfRange) ∧
      (s.pc.toNat ≤ 253 → ∃ t, exec (.push (regByte i)) s = .next t ∧
        s.pushAddr.toNat = s.sp.toNat - 1 ∧ t.sp = s.pushAddr ∧
        (s.mem.wf = true → t.mem.read s.pushAddr.toNat = if i = 7 then s.pushAddr else s.reg i) ∧
        t.pc.toNat = s.pc.toNat + 2 ∧ t.out = s.out ∧ Keeps s t [7] [s.pushAddr.toNat])))

/-- R158, R159 (D9, D25): POP loads x[r] from the cell at SP and increments SP after that; POP R7 leaves SP = (v + 1) mod 256. -/
def Obligations.PopLoadsFromTheStackPointer : Prop :=
  (∀ (r : Byte) (rest : List Byte), decode (0x46 :: r :: rest) = .ok (.pop r, rest)) ∧
  (∀ (r : Byte) (s : State), 8 ≤ r.toNat → FaultsWith (exec (.pop r) s) s .registerOutOfRange) ∧
  (∀ (i : RegIdx) (s : State),
    (0xF4 ≤ s.sp.toNat → FaultsWith (exec (.pop (regByte i)) s) s .stackUnderflow) ∧
    (s.sp.toNat < 0xF4 →
      (254 ≤ s.pc.toNat → FaultsWith (exec (.pop (regByte i)) s) s .memoryOutOfRange) ∧
      (s.pc.toNat ≤ 253 → ∃ t, exec (.pop (regByte i)) s = .next t ∧
        (i ≠ 7 → t.reg i = s.mem.read s.sp.toNat ∧ t.sp.toNat = s.sp.toNat + 1) ∧
        (i = 7 → t.sp.toNat = ((s.mem.read s.sp.toNat).toNat + 1) % 256) ∧
        t.pc.toNat = s.pc.toNat + 2 ∧ t.out = s.out ∧ Keeps s t [i, 7] [])))

/-- R162, R163 (D4, D9, D25): CALL stores the address after it at SP - 1 and sets pc to x[r], read after the decrement; no advance. -/
def Obligations.CallPushesTheReturnAddressAndJumps : Prop :=
  (∀ (r : Byte) (rest : List Byte), decode (0x50 :: r :: rest) = .ok (.call r, rest)) ∧
  (∀ (r : Byte) (s : State), 8 ≤ r.toNat → FaultsWith (exec (.call r) s) s .registerOutOfRange) ∧
  (∀ (i : RegIdx) (s : State),
    (s.sp = 0 → FaultsWith (exec (.call (regByte i)) s) s .stackOverflow) ∧
    (0xF4 < s.sp.toNat → FaultsWith (exec (.call (regByte i)) s) s .stackUnderflow) ∧
    (0 < s.sp.toNat → s.sp.toNat ≤ 0xF4 →
      (254 ≤ s.pc.toNat → FaultsWith (exec (.call (regByte i)) s) s .memoryOutOfRange) ∧
      (s.pc.toNat ≤ 253 → ∃ t, exec (.call (regByte i)) s = .next t ∧
        s.pushAddr.toNat = s.sp.toNat - 1 ∧ t.sp = s.pushAddr ∧
        (s.mem.wf = true → (t.mem.read s.pushAddr.toNat).toNat = s.pc.toNat + 2) ∧
        t.pc = (if i = 7 then s.pushAddr else s.reg i) ∧ t.out = s.out ∧ Keeps s t [7] [s.pushAddr.toNat])))

/-! ## The declared and absent opcodes -/

/-- R180 to R193: each of the 13 slots has bit 5 clear and takes FatalDecodeError, in every state, at every pc and whatever
bytes follow; no operand byte is read and nothing else is written. That each decodes to an instruction without operands,
whose execution is the fault R180 raises at classification, is log 4; the values but RET's are log 2. -/
def Obligations.AbsentOpcodesFaultFatally : Prop :=
  ∀ c ∈ [((0x48 : Byte), Instr.pra), (0x11, .ret), (0x52, .int), (0x13, .iret), (0x54, .jmp), (0x55, .jeq), (0x56, .jne),
      (0x57, .jgt), (0x58, .jlt), (0x59, .jle), (0x5A, .jge), (0x83, .ld), (0x84, .st)],
    c.1.getLsbD 5 = false ∧ (∀ rest : List Byte, decode (c.1 :: rest) = .ok (c.2, rest)) ∧
    (∀ s : State, FaultsWith (exec c.2 s) s .fatalDecodeError) ∧
    (∀ s : State, s.run = .fetching → s.mem.read s.pc.toNat = c.1 → FaultsWith (step s) s .fatalDecodeError)

/-! ## Rules of the whole machine -/

/-- R206 (D13): a running core takes exactly the first fault of the priority order, with nothing else changed; where no check
fails the step completes, and no fault is recorded. -/
def Obligations.FirstFailingCheckIsTheFaultTaken : Prop :=
  ∀ s : State, s.run = .fetching →
    (∀ k, s.firstFault = some k → FaultsWith (step s) s k) ∧
    (s.firstFault = none → ∃ t, step s = .next t ∧ t.run ≠ .faulted ∧ t.fault = s.fault)

/-- R106 (D14): a step that ends FAULTED has written the run state and the fault record and nothing else. -/
def Obligations.FaultingStepCommitsNothing : Prop :=
  ∀ s t : State, step s = .next t → t.run = .faulted → ∃ k, FaultsWith (step s) s k

/-- State.Inv holds after reset and after every load, for every draw of R0..R6. -/
def Obligations.ResetAndLoadMeetTheBoundaryInvariant : Prop :=
  State.reset.Inv ∧ ∀ (draw : Fin 7 → Byte) (img : List Byte) (s : State), load draw img = some s → s.Inv

/-- R28, R29 and the canonical form of memory: every step keeps State.Inv, from every state that has it. -/
def Obligations.EveryStepKeepsTheBoundaryInvariant : Prop :=
  ∀ s t : State, s.Inv → step s = .next t → t.Inv

/-- R109, which the spec derives: a step that completes and is neither CALL nor HLT advances pc by 1 + op[7:6]. -/
def Obligations.CompletedStepAdvancesPcByItsLength : Prop :=
  ∀ s t : State, step s = .next t → t.run ≠ .faulted →
    (s.mem.read s.pc.toNat).toNat ∉ [0x50, 0x01] →
    t.pc.toNat = s.pc.toNat + 1 + (s.mem.read s.pc.toNat).toNat / 64

/-- R31: the output stream only grows, by one byte, and only by PRN, which appends a register's value. -/
def Obligations.OutputGrowsOnlyByPrn : Prop :=
  ∀ s t : State, step s = .next t → t.out = s.out ∨
    ((s.mem.read s.pc.toNat).toNat = 0x47 ∧ t.out = s.out ++ [s.regOf (s.mem.read (s.pc.toNat + 1))])

/-- R50: a step changes a memory cell only by PUSH or CALL, and only the cell at SP - 1. -/
def Obligations.OnlyPushAndCallChangeMemory : Prop :=
  ∀ (s t : State) (a : Nat), step s = .next t → t.mem.read a ≠ s.mem.read a →
    (s.mem.read s.pc.toNat).toNat ∈ [0x45, 0x50] ∧ a + 1 = s.sp.toNat

/-- R21, R255: a step changes a register only if the instruction at pc may write it: its named destination, or SP for
PUSH, POP and CALL. -/
def Obligations.RegistersChangeOnlyAsTheInstructionNames : Prop :=
  ∀ (s t : State) (j : RegIdx), step s = .next t → t.reg j ≠ s.reg j → s.mayWrite j

/-- R28, R108: the run state after a step is FETCHING, HALTED (exactly after HLT) or FAULTED. -/
def Obligations.RunEndsOnlyByHltOrFault : Prop :=
  ∀ s t : State, step s = .next t →
    (t.run = .halted ↔ (s.mem.read s.pc.toNat).toNat = 0x01) ∧ (t.run = .fetching ∨ t.run = .halted ∨ t.run = .faulted)

/-- R53, R54, R102, R180: a step depends on memory only through the bytes it reads, which are the byte at pc, the operand
bytes of a byte of the two tables and, for POP, the cell at SP: two states that differ elsewhere in memory step alike. -/
def Obligations.StepReadsOnlyItsBytesAndThePoppedCell : Prop :=
  ∀ (s : State) (m : Memory), s.run = .fetching →
    m.read s.pc.toNat = s.mem.read s.pc.toNat →
    ((s.mem.read s.pc.toNat).toNat ∈ tableOpcodes → ∀ k, k ≤ (s.mem.read s.pc.toNat).toNat / 64 →
      m.read (s.pc.toNat + k) = s.mem.read (s.pc.toNat + k)) →
    ((s.mem.read s.pc.toNat).toNat = 0x46 → m.read s.sp.toNat = s.mem.read s.sp.toNat) →
    ∃ t u, step s = .next t ∧ step { s with mem := m } = .next u ∧
      u.regs = t.regs ∧ u.pc = t.pc ∧ u.run = t.run ∧ u.fault = t.fault ∧ u.out = t.out

/-- R160, the stack balance law, with the premise that the push does not overwrite the POP's own bytes (R252; log 9: without
it the law does not follow from R156 and R60). -/
def Obligations.PushThenPopRestoresRegisterAndStackPointer : Prop :=
  ∀ (s : State) (r : RegIdx), s.Inv → s.run = .fetching → 0 < s.sp.toNat → s.sp.toNat ≤ 0xF4 → s.pc.toNat ≤ 251 →
    s.mem.read s.pc.toNat = 0x45 → s.mem.read (s.pc.toNat + 1) = regByte r →
    s.mem.read (s.pc.toNat + 2) = 0x46 → s.mem.read (s.pc.toNat + 3) = regByte r →
    s.sp.toNat - 1 ≠ s.pc.toNat + 2 → s.sp.toNat - 1 ≠ s.pc.toNat + 3 →
    ∃ t : State, Host.Core.run Sys2Proof.core 2 s = .next t ∧ (∀ j : RegIdx, t.reg j = s.reg j) ∧
      t.pc.toNat = s.pc.toNat + 4 ∧ t.run = .fetching ∧ t.out = s.out ∧
      t.mem.read (s.sp.toNat - 1) = (if r = 7 then s.sp - 1 else s.reg r) ∧
      ∀ a : Nat, a ≠ s.sp.toNat - 1 → t.mem.read a = s.mem.read a

/-- R60, R251, R252, the case that R160's premise of log 9 leaves out: from a PUSH r, POP r whose push stores to one of the
POP's own bytes, the next step takes the stored byte v for the opcode (SP - 1 = p + 2: v as the byte at pc, and the fault of
its bit 5 where no table holds it) or for the POP's operand (SP - 1 = p + 3: x[v] becomes v and SP is restored, SP becomes 8
where v = 7, and RegisterOutOfRange where v is above 7). -/
def Obligations.PushOverItsOwnPopIsSeenByTheNextStep : Prop :=
  ∀ (s : State) (r : RegIdx) (v : Byte), s.Inv → s.run = .fetching → 0 < s.sp.toNat → s.sp.toNat ≤ 0xF4 →
    s.pc.toNat ≤ 251 → s.mem.read s.pc.toNat = 0x45 → s.mem.read (s.pc.toNat + 1) = regByte r →
    s.mem.read (s.pc.toNat + 2) = 0x46 → s.mem.read (s.pc.toNat + 3) = regByte r →
    v = (if r = 7 then s.sp - 1 else s.reg r) →
    ∃ t : State, step s = .next t ∧ t.pc.toNat = s.pc.toNat + 2 ∧ t.run = .fetching ∧
      (s.sp.toNat - 1 = s.pc.toNat + 2 → t.mem.read t.pc.toNat = v ∧
        (v.toNat ∉ tableOpcodes →
          FaultsWith (step t) t (if v.getLsbD 5 then .unsupportedALUOperation else .fatalDecodeError))) ∧
      (s.sp.toNat - 1 = s.pc.toNat + 3 →
        (8 ≤ v.toNat → FaultsWith (step t) t .registerOutOfRange) ∧
        (∀ d : RegIdx, v = regByte d → ∃ u : State, step t = .next u ∧ u.pc.toNat = s.pc.toNat + 4 ∧
          u.run = .fetching ∧ (d ≠ 7 → u.reg d = v ∧ u.sp = s.sp) ∧ (d = 7 → u.sp = 8)))

/-- R111, which the spec derives: from pc = p with NOP in every cell from p to 255, the core completes 255 - p NOPs and then faults with
MemoryOutOfRange at address 255, its registers, memory and output unchanged. -/
def Obligations.NopMemoryRunsOffTheEnd : Prop :=
  ∀ s : State, s.run = .fetching → (∀ a : Nat, s.pc.toNat ≤ a → a ≤ 255 → s.mem.read a = 0) →
    Host.Core.run Sys2Proof.core (255 - s.pc.toNat) s = .next ({ s with pc := 255 } : State) ∧
    FaultsWith (step { s with pc := 255 }) { s with pc := 255 } .memoryOutOfRange

/-- R163, which the spec derives: a CALL to its own address in the reserved area, 0xF4 <= p <= 0xFD, from the empty stack, completes 244 calls; the
next one faults with StackOverflow. -/
def Obligations.SelfCallInTheReservedAreaOverflowsTheStack : Prop :=
  ∀ (s : State) (r : RegIdx), s.Inv → s.run = .fetching → r ≠ 7 → s.reg r = s.pc → 0xF4 ≤ s.pc.toNat →
    s.pc.toNat ≤ 0xFD → s.sp = 0xF4 → s.mem.read s.pc.toNat = 0x50 → s.mem.read (s.pc.toNat + 1) = regByte r →
    ∃ t : State, Host.Core.run Sys2Proof.core 244 s = .next t ∧ t.sp = 0 ∧ t.pc = s.pc ∧
      (∀ a : Nat, a < 0xF4 → (t.mem.read a).toNat = s.pc.toNat + 2) ∧ FaultsWith (step t) t .stackOverflow
end

