-- ==== Sys2Proof/Laws/Decode.lean ====
section
/-! SUPPORT. Classification under an opcode map, and the bytes a step reads. -/

namespace Sys2Proof

/-- Every slot's opcode byte classifies as the slot (spec/30_encoding.md R77 to R79, R82). -/
theorem classify_opcodeMap (n : OpName) : classify (opcodeMap n) = .ok n := by
  cases n <;> decide

/-- A byte that classifies is the opcode byte of its slot, under any map. -/
theorem opcode_of_classifyIn {m : OpcodeMap} {op : Byte} {n : OpName} (h : classifyIn m op = .ok n) : m n = op := by
  unfold classifyIn at h
  split at h
  · split at h
    · next hf => cases h; simpa using List.find?_some hf
    · cases h
  · split at h
    · next hf => cases h; simpa using List.find?_some hf
    · cases h

theorem opcode_of_classify {op : Byte} {n : OpName} (h : classify op = .ok n) : op = opcodeMap n :=
  (opcode_of_classifyIn h).symm

/-- The step reads the operand bytes the slot's format has, and none for the slots of R82. -/
theorem operandBytesRead_opcodeMap (n : OpName) :
    operandBytesRead (opcodeMap n) = if n ∈ absentNames then 0 else formatOperands n := by
  cases n <;> decide

theorem operandBytesRead_name (i : Instr) : operandBytesRead (opcodeMap i.name) = i.operands.length := by
  cases i <;> exact operandBytesRead_opcodeMap _

theorem takeTwo_ok {c : Byte → Byte → Instr} {bytes rest : List Byte} {i : Instr}
    (h : takeTwo c bytes = .ok (i, rest)) : ∃ a b, i = c a b ∧ bytes = a :: b :: rest := by
  unfold takeTwo at h
  split at h
  · cases h; exact ⟨_, _, rfl, rfl⟩
  · cases h

theorem takeOne_ok {c : Byte → Instr} {bytes rest : List Byte} {i : Instr}
    (h : takeOne c bytes = .ok (i, rest)) : ∃ a, i = c a ∧ bytes = a :: rest := by
  unfold takeOne at h
  split at h
  · cases h; exact ⟨_, rfl, rfl⟩
  · cases h

/-- Operand bytes that are taken are those of the instruction, and the instruction is of the slot. -/
theorem takeOperands_ok {n : OpName} {bytes rest : List Byte} {i : Instr}
    (h : takeOperands n bytes = .ok (i, rest)) : i.name = n ∧ bytes = i.operands ++ rest := by
  cases n <;> first
    | (obtain ⟨a, b, rfl, rfl⟩ := takeTwo_ok h; exact ⟨rfl, rfl⟩)
    | (obtain ⟨a, rfl, rfl⟩ := takeOne_ok h; exact ⟨rfl, rfl⟩)
    | (cases h; exact ⟨rfl, rfl⟩)

theorem takeTwo_short {c : Byte → Byte → Instr} {bytes : List Byte} (h : bytes.length < 2) :
    takeTwo c bytes = .error .truncated := by
  rcases bytes with _ | ⟨a, _ | ⟨b, bs⟩⟩
  · rfl
  · rfl
  · simp at h

theorem takeOne_short {c : Byte → Instr} {bytes : List Byte} (h : bytes.length < 1) :
    takeOne c bytes = .error .truncated := by
  rcases bytes with _ | ⟨a, bs⟩
  · rfl
  · simp at h

/-- Too few bytes for the operands of a slot of the two tables. -/
theorem takeOperands_short {n : OpName} {bytes : List Byte} (hn : n ∉ absentNames)
    (h : bytes.length < formatOperands n) : takeOperands n bytes = .error .truncated := by
  revert hn
  cases n <;> intro hn <;> first
    | exact takeTwo_short h
    | exact takeOne_short h
    | (exfalso; revert hn; decide)
    | exact absurd h (by simp [formatOperands])

theorem opcodeMap_div_64 (n : OpName) : (opcodeMap n).toNat / 64 = formatOperands n := by cases n <;> decide

/-- A byte is one of the two tables' (spec/30_encoding.md R78, R79), or bit 5 decides its fault: UnsupportedALUOperation, or
FatalDecodeError as an unknown byte or as a slot of R82. -/
theorem classify_cases (op : Byte) :
    (∃ n, classify op = .ok n ∧ op.toNat ∈ Machine.tableOpcodes ∧ n ∉ absentNames ∧ op = opcodeMap n) ∨
    (op.toNat ∉ Machine.tableOpcodes ∧ op.getLsbD 5 = true ∧ classify op = .error .unsupportedALUOperation) ∨
    (op.toNat ∉ Machine.tableOpcodes ∧ op.getLsbD 5 = false ∧
      (classify op = .error .fatalDecodeError ∨ ∃ n ∈ absentNames, classify op = .ok n)) := by
  cases h : classify op with
  | ok n =>
    obtain rfl := opcode_of_classify h
    by_cases hn : n ∈ absentNames
    · refine .inr (.inr ⟨?_, ?_, .inr ⟨n, hn, rfl⟩⟩) <;> revert hn <;> cases n <;> decide
    · refine .inl ⟨n, rfl, ?_, hn, rfl⟩
      revert hn; cases n <;> decide
  | error e =>
    have ht : op.toNat ∉ Machine.tableOpcodes := by
      intro hm
      have h2 : ∃ n : OpName, op.toNat = (opcodeMap n).toNat := by
        have hall : ∀ k ∈ Machine.tableOpcodes, ∃ n ∈ aluNames ++ dispatchNames, k = (opcodeMap n).toNat := by decide
        obtain ⟨n, -, hn⟩ := hall _ hm
        exact ⟨n, hn⟩
      obtain ⟨n, hn⟩ := h2
      obtain rfl : op = opcodeMap n := BitVec.eq_of_toNat_eq hn
      rw [classify_opcodeMap] at h; cases h
    refine .inr ?_
    unfold classify classifyIn at h
    split at h
    · next ha =>
      split at h
      · cases h
      · cases h; exact .inl ⟨ht, ha, rfl⟩
    · next ha =>
      split at h
      · cases h
      · cases h; exact .inr ⟨ht, by simpa [aluBit] using ha, .inl rfl⟩

/-- The step reads operand bytes only for a byte of the two tables, and then as many as its field AA says (R102, R180). -/
theorem operandBytesRead_eq (op : Byte) :
    operandBytesRead op = if op.toNat ∈ Machine.tableOpcodes then op.toNat / 64 else 0 := by
  obtain ⟨n, -, ht, hn, rfl⟩ | ⟨ht, -, hc⟩ | ⟨ht, -, hc | ⟨n, hn, hc⟩⟩ := classify_cases op
  · rw [if_pos ht, operandBytesRead_opcodeMap, if_neg hn, opcodeMap_div_64]
  · rw [if_neg ht, operandBytesRead, hc]
  · rw [if_neg ht, operandBytesRead, hc]
  · obtain rfl := opcode_of_classify hc
    rw [if_neg ht, operandBytesRead_opcodeMap, if_pos hn]

end Sys2Proof
end

