-- ==== Sys2Proof/Laws/State.lean ====
section
/-! SUPPORT. One lemma per field per update of State, and the register reads after each update. -/

namespace Sys2Proof.Machine

namespace State

variable (s : State) (a v : Byte) (i j : RegIdx) (k : FaultKind)

@[simp] theorem memWrite_regs : (s.memWrite a v).regs = s.regs := rfl
@[simp] theorem memWrite_pc : (s.memWrite a v).pc = s.pc := rfl
@[simp] theorem memWrite_mem : (s.memWrite a v).mem = s.mem.write a.toNat v := rfl
@[simp] theorem memWrite_run : (s.memWrite a v).run = s.run := rfl
@[simp] theorem memWrite_fault : (s.memWrite a v).fault = s.fault := rfl
@[simp] theorem memWrite_out : (s.memWrite a v).out = s.out := rfl

@[simp] theorem setReg_regs : (s.setReg i v).regs = s.regs.set i v := rfl
@[simp] theorem setReg_pc : (s.setReg i v).pc = s.pc := rfl
@[simp] theorem setReg_mem : (s.setReg i v).mem = s.mem := rfl
@[simp] theorem setReg_run : (s.setReg i v).run = s.run := rfl
@[simp] theorem setReg_fault : (s.setReg i v).fault = s.fault := rfl
@[simp] theorem setReg_out : (s.setReg i v).out = s.out := rfl

@[simp] theorem setSp_regs : (s.setSp v).regs = s.regs.set Config.spIndex v := rfl
@[simp] theorem setSp_pc : (s.setSp v).pc = s.pc := rfl
@[simp] theorem setSp_mem : (s.setSp v).mem = s.mem := rfl
@[simp] theorem setSp_run : (s.setSp v).run = s.run := rfl
@[simp] theorem setSp_fault : (s.setSp v).fault = s.fault := rfl
@[simp] theorem setSp_out : (s.setSp v).out = s.out := rfl

@[simp] theorem emit_regs : (s.emit v).regs = s.regs := rfl
@[simp] theorem emit_pc : (s.emit v).pc = s.pc := rfl
@[simp] theorem emit_mem : (s.emit v).mem = s.mem := rfl
@[simp] theorem emit_run : (s.emit v).run = s.run := rfl
@[simp] theorem emit_fault : (s.emit v).fault = s.fault := rfl
@[simp] theorem emit_out : (s.emit v).out = s.out ++ [v] := rfl

@[simp] theorem halt_regs : (s.halt).regs = s.regs := rfl
@[simp] theorem halt_pc : (s.halt).pc = s.pc := rfl
@[simp] theorem halt_mem : (s.halt).mem = s.mem := rfl
@[simp] theorem halt_run : (s.halt).run = .halted := rfl
@[simp] theorem halt_fault : (s.halt).fault = s.fault := rfl
@[simp] theorem halt_out : (s.halt).out = s.out := rfl

@[simp] theorem setPc_regs : (s.setPc v).regs = s.regs := rfl
@[simp] theorem setPc_pc : (s.setPc v).pc = v := rfl
@[simp] theorem setPc_mem : (s.setPc v).mem = s.mem := rfl
@[simp] theorem setPc_run : (s.setPc v).run = s.run := rfl
@[simp] theorem setPc_fault : (s.setPc v).fault = s.fault := rfl
@[simp] theorem setPc_out : (s.setPc v).out = s.out := rfl

@[simp] theorem raise_regs : (s.raise k).regs = s.regs := rfl
@[simp] theorem raise_pc : (s.raise k).pc = s.pc := rfl
@[simp] theorem raise_mem : (s.raise k).mem = s.mem := rfl
@[simp] theorem raise_run : (s.raise k).run = .faulted := rfl
@[simp] theorem raise_fault : (s.raise k).fault = some ⟨k, s.pc, s.memRead s.pc⟩ := rfl
@[simp] theorem raise_out : (s.raise k).out = s.out := rfl

@[simp] theorem memWrite_reg : (s.memWrite a v).reg j = s.reg j := rfl
@[simp] theorem memWrite_sp : (s.memWrite a v).sp = s.sp := rfl
@[simp] theorem emit_reg : (s.emit v).reg j = s.reg j := rfl
@[simp] theorem emit_sp : (s.emit v).sp = s.sp := rfl
@[simp] theorem halt_reg : (s.halt).reg j = s.reg j := rfl
@[simp] theorem halt_sp : (s.halt).sp = s.sp := rfl
@[simp] theorem setPc_reg : (s.setPc v).reg j = s.reg j := rfl
@[simp] theorem setPc_sp : (s.setPc v).sp = s.sp := rfl
@[simp] theorem raise_reg : (s.raise k).reg j = s.reg j := rfl
@[simp] theorem raise_sp : (s.raise k).sp = s.sp := rfl

/-- Reading a register after a register write. -/
theorem setReg_reg : (s.setReg i v).reg j = if i = j then v else s.reg j := by
  simp only [State.reg, State.setReg, Fin.getElem_fin, Vector.getElem_set]
  by_cases h : i = j
  · simp [h]
  · simp [h, Fin.val_ne_of_ne h]

@[simp] theorem setReg_reg_same : (s.setReg i v).reg i = v := by simp [setReg_reg]

theorem setReg_reg_ne (h : i ≠ j) : (s.setReg i v).reg j = s.reg j := by simp [setReg_reg, h]

@[simp] theorem setSp_sp : (s.setSp v).sp = v := by simp [State.sp, State.setSp]

theorem setSp_reg : (s.setSp v).reg j = if (7 : RegIdx) = j then v else s.reg j := setReg_reg s v 7 j

theorem sp_eq_reg : s.sp = s.reg 7 := rfl

/-- A read of the register an operand byte names. -/
theorem regOf_regByte : s.regOf (regByte i) = s.reg i := by
  have h : (regByte i).toNat = i.val := by simp [regByte]; omega
  simp [State.regOf, h]

end State

end Sys2Proof.Machine
end

