-- ==== Sys2Proof/Laws/Memory.lean ====
section
/-! SUPPORT. Memory: read after write, and every memory operation keeps the canonical form, in which equal contents are
equal lists. -/

namespace Sys2Proof.Machine

namespace Memory

/-- From address `lo` on, a canonical memory holds nothing below `lo`. -/
theorem read_below {m : Memory} {lo a : Nat} (h : wfFrom lo m = true) (ha : a < lo) : m.read a = 0 := by
  induction m generalizing lo with
  | nil => rfl
  | cons c m ih =>
    obtain ⟨b, w⟩ := c
    simp only [wfFrom, Bool.and_eq_true, decide_eq_true_eq] at h
    have hne : a ≠ b := by omega
    simp only [read, if_neg hne]
    exact ih h.2 (by omega)

theorem wfFrom_mono {m : Memory} {lo lo' : Nat} (h : wfFrom lo m = true) (hl : lo' ≤ lo) : wfFrom lo' m = true := by
  cases m with
  | nil => rfl
  | cons c m =>
    obtain ⟨b, w⟩ := c
    simp only [wfFrom, Bool.and_eq_true, decide_eq_true_eq] at h ⊢
    exact ⟨⟨⟨by omega, h.1.1.2⟩, h.1.2⟩, h.2⟩

theorem wfFrom_cell {m : Memory} {lo a : Nat} {v : Byte} (h : wfFrom (a + 1) m = true) (hl : lo ≤ a) (ha : a < 256) :
    wfFrom lo (cell a v m) = true := by
  unfold cell
  split
  · exact wfFrom_mono h (by omega)
  · next hv =>
    simp only [wfFrom, Bool.and_eq_true, decide_eq_true_eq]
    exact ⟨⟨⟨hl, ha⟩, hv⟩, h⟩

/-- Reading after `cell` where `m` holds nothing at its address. -/
theorem read_cell {m : Memory} {a : Nat} {v : Byte} (b : Nat) (h : m.read a = 0) :
    (cell a v m).read b = if b = a then v else m.read b := by
  unfold cell
  split
  · next hv =>
    split
    · next hb => rw [hb, h, hv]; rfl
    · rfl
  · rfl

theorem wfFrom_write {m : Memory} {lo a : Nat} {v : Byte} (h : wfFrom lo m = true) (hl : lo ≤ a) (ha : a < 256) :
    wfFrom lo (m.write a v) = true := by
  induction m generalizing lo with
  | nil => exact wfFrom_cell rfl hl ha
  | cons c m ih =>
    obtain ⟨b, w⟩ := c
    have h' := h
    simp only [wfFrom, Bool.and_eq_true, decide_eq_true_eq] at h'
    simp only [write]
    split
    · next hab =>
      refine wfFrom_cell ?_ hl ha
      simp only [wfFrom, Bool.and_eq_true, decide_eq_true_eq]
      exact ⟨⟨⟨by omega, h'.1.1.2⟩, h'.1.2⟩, h'.2⟩
    · split
      · next hab => exact wfFrom_cell (hab ▸ h'.2) hl ha
      · simp only [wfFrom, Bool.and_eq_true, decide_eq_true_eq]
        exact ⟨h'.1, ih h'.2 (by omega)⟩

/-- A write leaves every other cell as it was, in any memory. -/
theorem read_write_ne {m : Memory} {a b : Nat} (v : Byte) (h : b ≠ a) : (m.write a v).read b = m.read b := by
  have hcell : ∀ m : Memory, (cell a v m).read b = m.read b := by
    intro m
    unfold cell
    split
    · rfl
    · simp [read, h]
  induction m with
  | nil => exact hcell []
  | cons c m ih =>
    obtain ⟨d, w⟩ := c
    simp only [write]
    split
    · exact hcell _
    · split
      · next had => rw [hcell, read, if_neg (had ▸ h)]
      · simp only [read, ih]

/-- A write keeps the canonical form. -/
theorem wf_write {m : Memory} {a : Nat} {v : Byte} (h : m.wf = true) (ha : a < 256) : (m.write a v).wf = true :=
  wfFrom_write h (Nat.zero_le _) ha

theorem read_write_from {m : Memory} {lo a : Nat} {v : Byte} (b : Nat) (h : wfFrom lo m = true) :
    (m.write a v).read b = if b = a then v else m.read b := by
  induction m generalizing lo with
  | nil => exact read_cell b rfl
  | cons c m ih =>
    obtain ⟨d, w⟩ := c
    have h' := h
    simp only [wfFrom, Bool.and_eq_true, decide_eq_true_eq] at h'
    simp only [write]
    split
    · next had =>
      refine read_cell b ?_
      have hne : a ≠ d := by omega
      simp only [read, if_neg hne]
      exact read_below h'.2 (by omega)
    · split
      · next had =>
        rw [read_cell b (by rw [had]; exact read_below h'.2 (by omega))]
        simp only [read]
        split
        · rfl
        · next hb => rw [if_neg (had ▸ hb)]
      · next hda =>
        simp only [read]
        split
        · next hb => rw [if_neg (by rw [hb]; exact fun e => hda e.symm)]
        · exact ih h'.2

/-- Read after write in a canonical memory (spec/20_memory.md R57). -/
theorem read_write {m : Memory} {a : Nat} {v : Byte} (b : Nat) (h : m.wf = true) :
    (m.write a v).read b = if b = a then v else m.read b := read_write_from b h

theorem wfFrom_ofImage (img : List Byte) (a : Nat) (h : a + img.length ≤ 256) : wfFrom a (ofImage a img) = true := by
  induction img generalizing a with
  | nil => rfl
  | cons v vs ih =>
    simp only [List.length_cons] at h
    exact wfFrom_cell (ih (a + 1) (by omega)) (Nat.le_refl a) (by omega)

/-- The contents of a placed image (spec/70_reset_and_hazards.md R241): its bytes, and 0 after them. -/
theorem read_ofImage (img : List Byte) (a : Nat) (h : a + img.length ≤ 256) :
    (∀ (i : Nat) (hi : i < img.length), (ofImage a img).read (a + i) = img[i]) ∧
    (∀ b, a + img.length ≤ b → (ofImage a img).read b = 0) := by
  induction img generalizing a with
  | nil => exact ⟨fun i hi => by simp at hi, fun b _ => rfl⟩
  | cons v vs ih =>
    simp only [List.length_cons] at h
    obtain ⟨h1, h2⟩ := ih (a + 1) (by omega)
    have hz := read_below (a := a) (wfFrom_ofImage vs (a + 1) (by omega)) (by omega)
    refine ⟨fun i hi => ?_, fun b hb => ?_⟩
    · rw [ofImage, read_cell _ hz]
      cases i with
      | zero => simp
      | succ i =>
        rw [if_neg (by omega)]
        simpa [Nat.add_assoc, Nat.add_comm 1] using h1 i (by simpa using hi)
    · simp only [List.length_cons] at hb
      rw [ofImage, read_cell _ hz, if_neg (by omega)]
      exact h2 b (by omega)

/-- The canonical form determines the list: two canonical memories with the same contents are equal. -/
theorem wfFrom_ext {m n : Memory} {lo : Nat} (hm : wfFrom lo m = true) (hn : wfFrom lo n = true)
    (h : ∀ a, m.read a = n.read a) : m = n := by
  induction m generalizing n lo with
  | nil =>
    cases n with
    | nil => rfl
    | cons c n =>
      obtain ⟨b, w⟩ := c
      simp only [wfFrom, Bool.and_eq_true, decide_eq_true_eq] at hn
      exact absurd (by simpa [read] using (h b).symm) hn.1.2
  | cons c m ih =>
    obtain ⟨b, w⟩ := c
    have hm' := hm
    simp only [wfFrom, Bool.and_eq_true, decide_eq_true_eq] at hm'
    cases n with
    | nil => exact absurd (by simpa [read] using h b) hm'.1.2
    | cons c' n =>
      obtain ⟨b', w'⟩ := c'
      have hn' := hn
      simp only [wfFrom, Bool.and_eq_true, decide_eq_true_eq] at hn'
      have hb : b = b' := by
        rcases Nat.lt_trichotomy b b' with hlt | heq | hgt
        · have := h b
          simp only [read, if_neg (Nat.ne_of_lt hlt)] at this
          rw [read_below hn'.2 (by omega)] at this
          exact absurd this hm'.1.2
        · exact heq
        · have := h b'
          simp only [read, if_neg (Nat.ne_of_lt hgt)] at this
          rw [read_below hm'.2 (by omega)] at this
          exact absurd this.symm hn'.1.2
      subst hb
      have hw : w = w' := by simpa [read] using h b
      subst hw
      congr 1
      refine ih hm'.2 hn'.2 fun a => ?_
      by_cases hab : a = b
      · rw [hab, read_below hm'.2 (by omega), read_below hn'.2 (by omega)]
      · simpa [read, hab] using h a

end Memory

namespace State

/-- Reading any cell after a byte write through the state. -/
theorem memWrite_read {s : State} {a v : Byte} (b : Nat) (h : s.mem.wf = true) :
    (s.memWrite a v).mem.read b = if b = a.toNat then v else s.mem.read b := Memory.read_write b h

theorem memWrite_read_ne {s : State} {a v : Byte} {b : Nat} (h : b ≠ a.toNat) :
    (s.memWrite a v).mem.read b = s.mem.read b := Memory.read_write_ne v h

theorem memWrite_wf {s : State} {a v : Byte} (h : s.mem.wf = true) : (s.memWrite a v).mem.wf = true :=
  Memory.wf_write h a.isLt

/-- Storing bytes, as placing an instruction does, keeps the canonical form. -/
theorem storeBytes_wf (bytes : List Byte) {s : State} (a : Nat) (h : s.mem.wf = true) :
    (s.storeBytes a bytes).mem.wf = true := by
  induction bytes generalizing s a with
  | nil => exact h
  | cons v vs ih =>
    simp only [storeBytes]
    split
    · next ha => exact ih _ (Memory.wf_write h ha)
    · exact h

end State

end Sys2Proof.Machine
end

