-- ==== Sys2Proof/Laws/Ops.lean ====
section
/-! SUPPORT. What each shared operation can do, once: the register check, the advance, the commit, the ALU shapes and the
stack checks. -/

namespace Sys2Proof.Machine

@[simp] theorem regByte_toNat (i : RegIdx) : (regByte i).toNat = i.val := by
  simp [regByte]; omega

theorem regByte_injective {i j : RegIdx} (h : regByte i = regByte j) : i = j := by
  have := congrArg BitVec.toNat h
  simpa [Fin.ext_iff] using this

theorem eq_regByte {a : Byte} {i : RegIdx} (h : a.toNat = i.val) : a = regByte i :=
  BitVec.eq_of_toNat_eq (by simpa using h)

@[simp] theorem checkReg_regByte (i : RegIdx) : checkReg (regByte i) = .ok i := by
  simp [checkReg]

theorem checkReg_bad {a : Byte} (h : 8 ≤ a.toNat) : checkReg a = .error .registerOutOfRange := by
  simp [checkReg, Nat.not_lt.mpr h]

/-- The register check answers a register or RegisterOutOfRange (spec/40_cycle.md R103). -/
theorem checkReg_cases (a : Byte) :
    (∃ i : RegIdx, a = regByte i ∧ checkReg a = .ok i) ∨ (8 ≤ a.toNat ∧ checkReg a = .error .registerOutOfRange) := by
  by_cases h : a.toNat < 8
  · exact .inl ⟨⟨a.toNat, h⟩, eq_regByte rfl, by simp [checkReg, h]⟩
  · exact .inr ⟨by omega, checkReg_bad (by omega)⟩

theorem checkReg_ok {a : Byte} {i : RegIdx} (h : checkReg a = .ok i) : a = regByte i := by
  obtain ⟨j, rfl, hj⟩ | ⟨-, hj⟩ := checkReg_cases a
  · rw [hj] at h; cases h; rfl
  · rw [hj] at h; cases h

theorem advance_error {s : State} {n : Nat} (h : 255 < s.pc.toNat + n + 1) :
    s.advance n = .error .memoryOutOfRange := by
  simp [State.advance, h]

theorem advance_ok {s : State} {n : Nat} (h : s.pc.toNat + n + 1 ≤ 255) :
    s.advance n = .ok (s.setPc (BitVec.ofNat 8 (s.pc.toNat + n + 1))) := by
  simp [State.advance, Nat.not_lt.mpr h]

/-- An advance that succeeds moves pc by n + 1 and changes nothing else (spec/40_cycle.md R105). -/
theorem advance_eq_ok {s t : State} {n : Nat} (h : s.advance n = .ok t) :
    s.pc.toNat + n + 1 ≤ 255 ∧ t = s.setPc (BitVec.ofNat 8 (s.pc.toNat + n + 1)) := by
  unfold State.advance at h
  split at h
  · cases h
  · next hp => cases h; exact ⟨by omega, rfl⟩

/-- The address after an instruction of n operand bytes, within 0..255. -/
theorem toNat_next {s : State} {n : Nat} (h : s.pc.toNat + n + 1 ≤ 255) :
    (BitVec.ofNat 8 (s.pc.toNat + n + 1)).toNat = s.pc.toNat + n + 1 := by
  simp; omega

@[simp] theorem commit_ok (s t : State) : s.commit (.ok t) = .next t := rfl

@[simp] theorem commit_error (s : State) (k : FaultKind) : s.commit (.error k) = .next (s.raise k) := rfl

/-- A committed transaction answers the staged state, or the fault taken in the state before it. -/
theorem commit_eq_next {s t : State} {r : Except FaultKind State} (h : s.commit r = .next t) :
    r = .ok t ∨ ∃ k, r = .error k ∧ t = s.raise k := by
  cases r with
  | ok u => cases h; exact .inl rfl
  | error k => cases h; exact .inr ⟨k, rfl, rfl⟩

/-- Taking a fault, seen from outside (spec/40_cycle.md R106). -/
theorem commit_error_faultsWith (s : State) (k : FaultKind) : FaultsWith (s.commit (.error k)) s k := rfl

theorem checkPush_overflow {s : State} (h : s.sp = 0) : checkPush s = .error .stackOverflow := by
  simp [checkPush, h]

theorem checkPush_underflow {s : State} (h : 0xF4 < s.sp.toNat) : checkPush s = .error .stackUnderflow := by
  have h0 : s.sp ≠ 0 := fun e => by simp [e] at h
  rw [checkPush, if_neg h0]
  exact if_pos h

theorem checkPush_ok {s : State} (h0 : 0 < s.sp.toNat) (h : s.sp.toNat ≤ 0xF4) : checkPush s = .ok () := by
  have hne : s.sp ≠ 0 := fun e => by simp [e] at h0
  rw [checkPush, if_neg hne]
  exact if_neg (Nat.not_lt.mpr h)

/-- The stack checks of a push (spec/42_handlers.md R156): the empty room, then SP above the stack, then none. -/
theorem checkPush_cases (s : State) :
    (s.sp = 0 ∧ checkPush s = .error .stackOverflow) ∨
    (0xF4 < s.sp.toNat ∧ checkPush s = .error .stackUnderflow) ∨
    (0 < s.sp.toNat ∧ s.sp.toNat ≤ 0xF4 ∧ checkPush s = .ok ()) := by
  by_cases h0 : s.sp = 0
  · exact .inl ⟨h0, checkPush_overflow h0⟩
  · have hpos : 0 < s.sp.toNat := Nat.pos_of_ne_zero fun e => h0 (BitVec.eq_of_toNat_eq (by simpa using e))
    by_cases h : 0xF4 < s.sp.toNat
    · exact .inr (.inl ⟨h, checkPush_underflow h⟩)
    · exact .inr (.inr ⟨hpos, by omega, checkPush_ok hpos (by omega)⟩)

theorem checkPop_underflow {s : State} (h : 0xF4 ≤ s.sp.toNat) : checkPop s = .error .stackUnderflow := by
  simp [checkPop, Config.stackTop, h]

theorem checkPop_ok {s : State} (h : s.sp.toNat < 0xF4) : checkPop s = .ok () := by
  simp [checkPop, Config.stackTop, Nat.not_le.mpr h]

theorem pushAddr_eq (s : State) : s.pushAddr = s.sp - 1 := by simp [State.pushAddr, State.decSp]

end Sys2Proof.Machine
end

