-- ==== Sys2Proof/Laws/Exec.lean ====
section
/-! SUPPORT. What the two ALU shapes do in each case, and what any instruction can do (one inversion lemma for exec). -/

namespace Sys2Proof.Machine

section Shapes

variable {f : Byte → Byte → Except FaultKind Byte} {g : Byte → Byte} {s : State} {i j : RegIdx}

theorem alu2_bad_register (f) {a b : Byte} (s : State) (h : 8 ≤ a.toNat ∨ 8 ≤ b.toNat) :
    alu2 f a b s = .next (s.raise .registerOutOfRange) := by
  obtain ⟨i, rfl, hi⟩ | ⟨-, hi⟩ := checkReg_cases a
  · have hb : 8 ≤ b.toNat := by rw [regByte_toNat] at h; omega
    simp [alu2, checkReg_bad hb, bind, Except.bind]
  · simp [alu2, hi, bind, Except.bind]

theorem alu2_no_result {k : FaultKind} (h : f (s.reg i) (s.reg j) = .error k) :
    alu2 f (regByte i) (regByte j) s = .next (s.raise k) := by
  simp [alu2, h, bind, Except.bind]

theorem alu2_past_end {v : Byte} (h : f (s.reg i) (s.reg j) = .ok v) (hp : 253 ≤ s.pc.toNat) :
    alu2 f (regByte i) (regByte j) s = .next (s.raise .memoryOutOfRange) := by
  simp [alu2, h, bind, Except.bind, advance_error (s := s.setReg i v) (n := 2) (by simp; omega)]

theorem alu2_completes {v : Byte} (h : f (s.reg i) (s.reg j) = .ok v) (hp : s.pc.toNat ≤ 252) :
    alu2 f (regByte i) (regByte j) s = .next ((s.setReg i v).setPc (BitVec.ofNat 8 (s.pc.toNat + 2 + 1))) := by
  simp [alu2, h, bind, Except.bind, advance_ok (s := s.setReg i v) (n := 2) (by simp; omega)]

theorem alu1_bad_register (g) {a : Byte} (s : State) (h : 8 ≤ a.toNat) :
    alu1 g a s = .next (s.raise .registerOutOfRange) := by
  simp [alu1, checkReg_bad h, bind, Except.bind]

theorem alu1_past_end (hp : 254 ≤ s.pc.toNat) : alu1 g (regByte i) s = .next (s.raise .memoryOutOfRange) := by
  simp [alu1, bind, Except.bind, advance_error (s := s.setReg i (g (s.reg i))) (n := 1) (by simp; omega)]

theorem alu1_completes (hp : s.pc.toNat ≤ 253) :
    alu1 g (regByte i) s = .next ((s.setReg i (g (s.reg i))).setPc (BitVec.ofNat 8 (s.pc.toNat + 1 + 1))) := by
  simp [alu1, bind, Except.bind, advance_ok (s := s.setReg i (g (s.reg i))) (n := 1) (by simp; omega)]

/-- A register write followed by the pc update keeps everything else. -/
theorem keeps_setReg_setPc (s : State) (i : RegIdx) (v q : Byte) : Keeps s ((s.setReg i v).setPc q) [i] [] := by
  refine ⟨fun j hj => ?_, fun _ _ => rfl, rfl, rfl⟩
  have hne : i ≠ j := fun e => hj (by simp [e])
  simp [State.setReg_reg_ne s v i j hne]

theorem keeps_setPc (s : State) (q : Byte) : Keeps s (s.setPc q) [] [] :=
  ⟨fun _ _ => rfl, fun _ _ => rfl, rfl, rfl⟩

/-- The address a push stores to, while the stack has room. -/
theorem pushAddr_toNat {s : State} (h : 0 < s.sp.toNat) : s.pushAddr.toNat = s.sp.toNat - 1 := by
  rw [pushAddr_eq]
  have := s.sp.isLt
  simp
  omega

/-- Registers after the decrement of SP: R7 is the store address (spec/42_handlers.md R157, R163). -/
theorem decSp_reg (s : State) (i : RegIdx) : s.decSp.reg i = if i = 7 then s.pushAddr else s.reg i := by
  rw [pushAddr_eq, State.decSp, State.setSp_reg]
  simp only [eq_comm]

/-- A push followed by a pc update keeps every register but R7 and every cell but the one stored to. -/
theorem keeps_push (s : State) (v q : Byte) :
    Keeps s ((s.decSp.memWrite s.pushAddr v).setPc q) [7] [s.pushAddr.toNat] := by
  refine ⟨fun j hj => ?_, fun a ha => ?_, rfl, rfl⟩
  · simp only [List.mem_cons, List.not_mem_nil, or_false] at hj
    simp [decSp_reg, hj]
  · exact Memory.read_write_ne v (by simpa using ha)

/-- The two-register shape follows the two-register rule whose result its function computes. -/
theorem alu2_rule {result : Nat → Nat → Option Nat}
    (hnone : ∀ x y : Byte, result x.toNat y.toNat = none → f x y = .error .divisionByZero)
    (hsome : ∀ x y : Byte, ∀ v, result x.toNat y.toNat = some v → ∃ w, f x y = .ok w ∧ w.toNat = v) :
    TwoRegisterRule (alu2 f) result := by
  refine ⟨fun a b s h => alu2_bad_register f s h, fun i j s h => alu2_no_result (hnone _ _ h), fun i j s v h => ?_⟩
  obtain ⟨w, hw, rfl⟩ := hsome _ _ v h
  refine ⟨fun hp => alu2_past_end hw hp, fun hp => ⟨_, alu2_completes hw hp, ?_, ?_, rfl, keeps_setReg_setPc ..⟩⟩
  · simp
  · simpa using toNat_next (s := s) (n := 2) (by omega)

/-- The one-register shape follows the one-register rule whose result its function computes. -/
theorem alu1_rule {result : Nat → Nat} (h : ∀ x : Byte, (g x).toNat = result x.toNat) :
    OneRegisterRule (alu1 g) result := by
  refine ⟨fun a s ha => alu1_bad_register g s ha, fun i s => ⟨fun hp => alu1_past_end hp, fun hp => ?_⟩⟩
  refine ⟨_, alu1_completes hp, ?_, ?_, rfl, keeps_setReg_setPc ..⟩
  · simp [h]
  · simpa using toNat_next (s := s) (n := 1) (by omega)

end Shapes

/-- The operand byte that names the destination register of an ALU instruction other than CMP, or of LDI. -/
def destOf : Instr → Option Byte
  | .add a _ | .sub a _ | .mul a _ | .div a _ | .mod a _ | .and a _ | .or a _ | .xor a _ | .shl a _ | .shr a _
  | .ldi a _ | .inc a | .dec a | .not a => some a
  | .cmp _ _ | .nop | .hlt | .prn _ | .push _ | .pop _ | .call _ => none
  | .pra | .ret | .int | .iret | .jmp | .jeq | .jne | .jgt | .jlt | .jle | .jge | .ld | .st => none

/-- Everything an instruction that answers a next state can do. -/
inductive Effect (s : State) : Instr → State → Prop
  | faults {i : Instr} (k : FaultKind) : Effect s i (s.raise k)
  | halts : Effect s .hlt s.halt
  | advances {i : Instr} (n : Nat) (hi : i = .nop ∨ ∃ a b, i = .cmp a b) (hn : i.operands.length = n)
      (hp : s.pc.toNat + n + 1 ≤ 255) : Effect s i (s.setPc (BitVec.ofNat 8 (s.pc.toNat + n + 1)))
  | writes {i : Instr} (d : RegIdx) (v : Byte) (n : Nat) (hi : destOf i = some (regByte d))
      (hn : i.operands.length = n) (hp : s.pc.toNat + n + 1 ≤ 255) :
      Effect s i ((s.setReg d v).setPc (BitVec.ofNat 8 (s.pc.toNat + n + 1)))
  | prints (d : RegIdx) (hp : s.pc.toNat + 1 + 1 ≤ 255) :
      Effect s (.prn (regByte d)) ((s.emit (s.reg d)).setPc (BitVec.ofNat 8 (s.pc.toNat + 1 + 1)))
  | pushes (d : RegIdx) (h0 : 0 < s.sp.toNat) (h1 : s.sp.toNat ≤ 0xF4) (hp : s.pc.toNat + 1 + 1 ≤ 255) :
      Effect s (.push (regByte d))
        ((s.decSp.memWrite s.pushAddr (s.decSp.reg d)).setPc (BitVec.ofNat 8 (s.pc.toNat + 1 + 1)))
  | pops (d : RegIdx) (h1 : s.sp.toNat < 0xF4) (hp : s.pc.toNat + 1 + 1 ≤ 255) :
      Effect s (.pop (regByte d))
        (((s.setReg d (s.memRead s.sp)).setSp ((s.setReg d (s.memRead s.sp)).sp + 1)).setPc
          (BitVec.ofNat 8 (s.pc.toNat + 1 + 1)))
  | calls (d : RegIdx) (h0 : 0 < s.sp.toNat) (h1 : s.sp.toNat ≤ 0xF4) (hp : s.pc.toNat + 2 ≤ 255) :
      Effect s (.call (regByte d))
        ((s.decSp.memWrite s.pushAddr (BitVec.ofNat 8 (s.pc.toNat + 2))).setPc (s.decSp.reg d))

theorem alu2_effect {f : Byte → Byte → Except FaultKind Byte} {a b : Byte} {s t : State}
    (h : alu2 f a b s = .next t) :
    (∃ k, t = s.raise k) ∨ ∃ d v, a = regByte d ∧ s.pc.toNat + 2 + 1 ≤ 255 ∧
      t = (s.setReg d v).setPc (BitVec.ofNat 8 (s.pc.toNat + 2 + 1)) := by
  obtain h | ⟨k, -, rfl⟩ := commit_eq_next h
  · obtain ⟨i, rfl, hi⟩ | ⟨-, hi⟩ := checkReg_cases a
    · obtain ⟨j, rfl, hj⟩ | ⟨-, hj⟩ := checkReg_cases b
      · cases hf : f (s.reg i) (s.reg j) with
        | error k => simp [hf, bind, Except.bind] at h
        | ok v =>
          simp only [checkReg_regByte, hf, bind, Except.bind] at h
          obtain ⟨hp, rfl⟩ := advance_eq_ok h
          exact .inr ⟨i, v, rfl, hp, rfl⟩
      · simp [hj, bind, Except.bind] at h
    · simp [hi, bind, Except.bind] at h
  · exact .inl ⟨k, rfl⟩

theorem alu1_effect {g : Byte → Byte} {a : Byte} {s t : State} (h : alu1 g a s = .next t) :
    (∃ k, t = s.raise k) ∨ ∃ d v, a = regByte d ∧ s.pc.toNat + 1 + 1 ≤ 255 ∧
      t = (s.setReg d v).setPc (BitVec.ofNat 8 (s.pc.toNat + 1 + 1)) := by
  obtain h | ⟨k, -, rfl⟩ := commit_eq_next h
  · obtain ⟨i, rfl, hi⟩ | ⟨-, hi⟩ := checkReg_cases a
    · simp only [checkReg_regByte, bind, Except.bind] at h
      obtain ⟨hp, rfl⟩ := advance_eq_ok h
      exact .inr ⟨i, _, rfl, hp, rfl⟩
    · simp [hi, bind, Except.bind] at h
  · exact .inl ⟨k, rfl⟩

theorem execPush_effect {a : Byte} {s t : State} (h : execPush a s = .next t) : Effect s (.push a) t := by
  obtain h | ⟨k, -, rfl⟩ := commit_eq_next h
  · obtain ⟨d, rfl, -⟩ | ⟨-, hi⟩ := checkReg_cases a
    · obtain ⟨-, hc⟩ | ⟨-, hc⟩ | ⟨h0, h1, hc⟩ := checkPush_cases s
      · simp [hc, bind, Except.bind] at h
      · simp [hc, bind, Except.bind] at h
      · simp only [checkReg_regByte, hc, bind, Except.bind] at h
        obtain ⟨hp, rfl⟩ := advance_eq_ok h
        exact .pushes d h0 h1 hp
    · simp [hi, bind, Except.bind] at h
  · exact .faults k

theorem execPop_effect {a : Byte} {s t : State} (h : execPop a s = .next t) : Effect s (.pop a) t := by
  obtain h | ⟨k, -, rfl⟩ := commit_eq_next h
  · obtain ⟨d, rfl, -⟩ | ⟨-, hi⟩ := checkReg_cases a
    · by_cases h1 : s.sp.toNat < 0xF4
      · simp only [checkReg_regByte, checkPop_ok h1, bind, Except.bind] at h
        obtain ⟨hp, rfl⟩ := advance_eq_ok h
        exact .pops d h1 hp
      · simp [checkPop_underflow (Nat.not_lt.mp h1), bind, Except.bind] at h
    · simp [hi, bind, Except.bind] at h
  · exact .faults k

theorem execCall_effect {a : Byte} {s t : State} (h : execCall a s = .next t) : Effect s (.call a) t := by
  obtain h | ⟨k, -, rfl⟩ := commit_eq_next h
  · obtain ⟨d, rfl, -⟩ | ⟨-, hi⟩ := checkReg_cases a
    · obtain ⟨-, hc⟩ | ⟨-, hc⟩ | ⟨h0, h1, hc⟩ := checkPush_cases s
      · simp [hc, bind, Except.bind] at h
      · simp [hc, bind, Except.bind] at h
      · simp only [checkReg_regByte, hc, bind, Except.bind] at h
        split at h
        · cases h
        · next hp => cases h; exact .calls d h0 h1 (by omega)
    · simp [hi, bind, Except.bind] at h
  · exact .faults k

theorem execPrn_effect {a : Byte} {s t : State} (h : execPrn a s = .next t) : Effect s (.prn a) t := by
  obtain h | ⟨k, -, rfl⟩ := commit_eq_next h
  · obtain ⟨d, rfl, -⟩ | ⟨-, hi⟩ := checkReg_cases a
    · simp only [checkReg_regByte, bind, Except.bind] at h
      obtain ⟨hp, rfl⟩ := advance_eq_ok h
      exact .prints d hp
    · simp [hi, bind, Except.bind] at h
  · exact .faults k

theorem execLdi_effect {a b : Byte} {s t : State} (h : execLdi a b s = .next t) : Effect s (.ldi a b) t := by
  obtain h | ⟨k, -, rfl⟩ := commit_eq_next h
  · obtain ⟨d, rfl, -⟩ | ⟨-, hi⟩ := checkReg_cases a
    · simp only [checkReg_regByte, bind, Except.bind] at h
      obtain ⟨hp, rfl⟩ := advance_eq_ok h
      exact .writes d b 2 rfl rfl hp
    · simp [hi, bind, Except.bind] at h
  · exact .faults k

theorem execCmp_effect {a b : Byte} {s t : State} (h : execCmp a b s = .next t) : Effect s (.cmp a b) t := by
  obtain h | ⟨k, -, rfl⟩ := commit_eq_next h
  · obtain ⟨i, rfl, hi⟩ | ⟨-, hi⟩ := checkReg_cases a
    · obtain ⟨j, rfl, hj⟩ | ⟨-, hj⟩ := checkReg_cases b
      · simp only [checkReg_regByte, bind, Except.bind] at h
        obtain ⟨hp, rfl⟩ := advance_eq_ok h
        exact .advances 2 (.inr ⟨_, _, rfl⟩) rfl hp
      · simp [hj, bind, Except.bind] at h
    · simp [hi, bind, Except.bind] at h
  · exact .faults k

theorem execNop_effect {s t : State} (h : execNop s = .next t) : Effect s .nop t := by
  obtain h | ⟨k, -, rfl⟩ := commit_eq_next h
  · obtain ⟨hp, rfl⟩ := advance_eq_ok h
    exact .advances 0 (.inl rfl) rfl hp
  · exact .faults k

/-- An instruction of the two-register shape has an effect of `Effect`. -/
theorem alu2_to_effect {f : Byte → Byte → Except FaultKind Byte} {a b : Byte} {s t : State} {i : Instr}
    (h : alu2 f a b s = .next t) (hi : destOf i = some a) (hn : i.operands.length = 2) : Effect s i t := by
  obtain ⟨k, rfl⟩ | ⟨d, v, rfl, hp, rfl⟩ := alu2_effect h
  · exact .faults k
  · exact .writes d v 2 hi hn hp

/-- An instruction of the one-register shape has an effect of `Effect`. -/
theorem alu1_to_effect {g : Byte → Byte} {a : Byte} {s t : State} {i : Instr}
    (h : alu1 g a s = .next t) (hi : destOf i = some a) (hn : i.operands.length = 1) : Effect s i t := by
  obtain ⟨k, rfl⟩ | ⟨d, v, rfl, hp, rfl⟩ := alu1_effect h
  · exact .faults k
  · exact .writes d v 1 hi hn hp

/-- Everything `exec` can do, for every instruction and every state. -/
theorem exec_effect {i : Instr} {s t : State} (h : exec i s = .next t) : Effect s i t := by
  cases i with
  | add a b => exact alu2_to_effect (f := fun x y => .ok (aluAdd x y)) h rfl rfl
  | sub a b => exact alu2_to_effect (f := fun x y => .ok (aluSub x y)) h rfl rfl
  | mul a b => exact alu2_to_effect (f := fun x y => .ok (aluMul x y)) h rfl rfl
  | div a b => exact alu2_to_effect (f := aluDivIn Config.divOperandOrder) h rfl rfl
  | mod a b => exact alu2_to_effect (f := aluMod) h rfl rfl
  | inc a => exact alu1_to_effect (g := aluInc) h rfl rfl
  | dec a => exact alu1_to_effect (g := aluDec) h rfl rfl
  | cmp a b => exact execCmp_effect h
  | and a b => exact alu2_to_effect (f := fun x y => .ok (aluAnd x y)) h rfl rfl
  | not a => exact alu1_to_effect (g := aluNot) h rfl rfl
  | or a b => exact alu2_to_effect (f := fun x y => .ok (aluOr x y)) h rfl rfl
  | xor a b => exact alu2_to_effect (f := fun x y => .ok (aluXor x y)) h rfl rfl
  | shl a b => exact alu2_to_effect (f := fun x y => .ok (aluShl x y)) h rfl rfl
  | shr a b => exact alu2_to_effect (f := fun x y => .ok (aluShr x y)) h rfl rfl
  | nop => exact execNop_effect h
  | hlt => cases h; exact .halts
  | ldi r v => exact execLdi_effect h
  | prn r => exact execPrn_effect h
  | push r => exact execPush_effect h
  | pop r => exact execPop_effect h
  | call r => exact execCall_effect h
  | pra | ret | int | iret | jmp | jeq | jne | jgt | jlt | jle | jge | ld | st => cases h; exact .faults _

/-- The run state after an effect: FAULTED by a fault, HALTED by HLT, else as before. -/
theorem effect_run {s t : State} {i : Instr} (h : Effect s i t) :
    (∃ k, t = s.raise k) ∨ (i = .hlt ∧ t = s.halt) ∨ (t.run = s.run ∧ t.fault = s.fault ∧ i ≠ .hlt) := by
  cases h with
  | faults k => exact .inl ⟨_, rfl⟩
  | halts => exact .inr (.inl ⟨rfl, rfl⟩)
  | advances n hi =>
    refine .inr (.inr ⟨rfl, rfl, fun e => ?_⟩)
    subst e
    rcases hi with h | ⟨_, _, h⟩ <;> cases h
  | writes d v n hi =>
    refine .inr (.inr ⟨rfl, rfl, fun e => ?_⟩)
    subst e
    cases hi
  | prints | pushes | pops | calls => exact .inr (.inr ⟨rfl, rfl, fun e => by cases e⟩)

/-- Every effect keeps the canonical form of memory. -/
theorem effect_wf {s t : State} {i : Instr} (h : Effect s i t) (hw : s.mem.wf = true) : t.mem.wf = true := by
  cases h with
  | pushes | calls => exact State.memWrite_wf (s := s.decSp) hw
  | faults | halts | advances | writes | prints | pops => exact hw

/-- Every instruction answers a next state, its own effect or the fault taken. -/
theorem exec_next (i : Instr) (s : State) : ∃ t, exec i s = .next t := by
  cases i <;> exact ⟨_, rfl⟩

end Sys2Proof.Machine
end

