-- ==== Sys2Proof/Laws/Loader.lean ====
section
/-! SUPPORT. The image text, line by line (spec/70_reset_and_hazards.md R243): what each form of line gives. -/

namespace Sys2Proof.Machine

/-- The lines of an image one at a time: a line's bytes, then the rest's. -/
theorem parseLines_cons (l : Text) (ls : List Text) :
    parseLines (l :: ls) = (parseLine l).bind (fun v => (parseLines ls).map (v ++ ·)) := by
  rw [parseLines]
  cases parseLine l <;> cases parseLines ls <;> rfl

theorem isBlankLine_iff {l : Text} : isBlankLine l = true ↔ ∀ c ∈ l, c ∈ [' ', '\t', '\r'] := by
  simp [isBlankLine, or_assoc]

theorem parseLine_comment (l : Text) : parseLine ('#' :: l) = some [] := rfl

theorem parseLine_blank {l : Text} (h : ∀ c ∈ l, c ∈ [' ', '\t', '\r']) : parseLine l = some [] := by
  simp [parseLine, isBlankLine_iff.mpr h]

/-- A line of 8 binary digits, bit 7 first, is its byte (spec/30_encoding.md R86). -/
theorem parseLine_lineOfByte (v : Byte) : parseLine (lineOfByte v) = some [v] := by
  revert v
  decide +kernel

/-- Digits that are not all binary have no value. -/
theorem bitsValue_none {l : Text} {c : Char} (hc : c ∈ l) (h : bitOf c = none) (acc : Nat) : bitsValue acc l = none := by
  induction l generalizing acc with
  | nil => cases hc
  | cons d l ih =>
    rw [bitsValue]
    obtain rfl | hc := List.mem_cons.mp hc
    · rw [h]
    · cases bitOf d with
      | none => rfl
      | some b => exact ih hc _

/-- A line of none of the three forms is refused (D24). -/
theorem parseLine_none {l : Text} (hcomment : l.head? ≠ some '#') (hblank : ∃ c ∈ l, c ∉ [' ', '\t', '\r'])
    (hbits : l.length ≠ 8 ∨ ∃ c ∈ l, c ≠ '0' ∧ c ≠ '1') : parseLine l = none := by
  have hb : isBlankLine l = false := by
    rw [← Bool.not_eq_true, isBlankLine_iff]
    obtain ⟨c, hc, hn⟩ := hblank
    exact fun h => hn (h c hc)
  have hm : isCommentLine l = false := by
    cases l with
    | nil => rfl
    | cons d l => simpa [isCommentLine] using hcomment
  rw [parseLine, hb, hm]
  obtain h | ⟨c, hc, h0, h1⟩ := hbits
  · simp [h]
  · simp [bitsValue_none hc (show bitOf c = none by simp [bitOf, h0, h1])]

/-- One refused line refuses the image, wherever it stands. -/
theorem parseLines_none {l : Text} {ls : List Text} (hl : l ∈ ls) (h : parseLine l = none) : parseLines ls = none := by
  induction ls with
  | nil => cases hl
  | cons k ls ih =>
    rw [parseLines_cons]
    obtain rfl | hl := List.mem_cons.mp hl
    · rw [h]; rfl
    · rw [ih hl]
      cases parseLine k <;> rfl

end Sys2Proof.Machine
end

