-- ==== Sys2Proof/Laws/PerInstr.lean ====
section
/-! SUPPORT. One lemma per constructor: the shape of every instruction's encoding (spec/30_encoding.md R70, R77, R180). -/

namespace Sys2Proof.Laws.Shape

/-- The encoding is the slot's opcode byte and the operand bytes; the step reads exactly those; the opcode byte classifies
as the slot. -/
def Statement (i : Instr) : Prop :=
  encode i = opcodeMap i.name :: i.operands ∧
  operandBytesRead (opcodeMap i.name) = i.operands.length ∧
  classify (opcodeMap i.name) = .ok i.name

theorem add (a b : Byte) : Statement (.add a b) := ⟨rfl, operandBytesRead_name _, classify_opcodeMap _⟩
theorem sub (a b : Byte) : Statement (.sub a b) := ⟨rfl, operandBytesRead_name _, classify_opcodeMap _⟩
theorem mul (a b : Byte) : Statement (.mul a b) := ⟨rfl, operandBytesRead_name _, classify_opcodeMap _⟩
theorem div (a b : Byte) : Statement (.div a b) := ⟨rfl, operandBytesRead_name _, classify_opcodeMap _⟩
theorem mod (a b : Byte) : Statement (.mod a b) := ⟨rfl, operandBytesRead_name _, classify_opcodeMap _⟩
theorem inc (a : Byte) : Statement (.inc a) := ⟨rfl, operandBytesRead_name _, classify_opcodeMap _⟩
theorem dec (a : Byte) : Statement (.dec a) := ⟨rfl, operandBytesRead_name _, classify_opcodeMap _⟩
theorem cmp (a b : Byte) : Statement (.cmp a b) := ⟨rfl, operandBytesRead_name _, classify_opcodeMap _⟩
theorem and (a b : Byte) : Statement (.and a b) := ⟨rfl, operandBytesRead_name _, classify_opcodeMap _⟩
theorem not (a : Byte) : Statement (.not a) := ⟨rfl, operandBytesRead_name _, classify_opcodeMap _⟩
theorem or (a b : Byte) : Statement (.or a b) := ⟨rfl, operandBytesRead_name _, classify_opcodeMap _⟩
theorem xor (a b : Byte) : Statement (.xor a b) := ⟨rfl, operandBytesRead_name _, classify_opcodeMap _⟩
theorem shl (a b : Byte) : Statement (.shl a b) := ⟨rfl, operandBytesRead_name _, classify_opcodeMap _⟩
theorem shr (a b : Byte) : Statement (.shr a b) := ⟨rfl, operandBytesRead_name _, classify_opcodeMap _⟩
theorem nop : Statement (.nop) := ⟨rfl, operandBytesRead_name _, classify_opcodeMap _⟩
theorem hlt : Statement (.hlt) := ⟨rfl, operandBytesRead_name _, classify_opcodeMap _⟩
theorem ldi (a b : Byte) : Statement (.ldi a b) := ⟨rfl, operandBytesRead_name _, classify_opcodeMap _⟩
theorem prn (a : Byte) : Statement (.prn a) := ⟨rfl, operandBytesRead_name _, classify_opcodeMap _⟩
theorem push (a : Byte) : Statement (.push a) := ⟨rfl, operandBytesRead_name _, classify_opcodeMap _⟩
theorem pop (a : Byte) : Statement (.pop a) := ⟨rfl, operandBytesRead_name _, classify_opcodeMap _⟩
theorem call (a : Byte) : Statement (.call a) := ⟨rfl, operandBytesRead_name _, classify_opcodeMap _⟩
theorem pra : Statement (.pra) := ⟨rfl, operandBytesRead_name _, classify_opcodeMap _⟩
theorem ret : Statement (.ret) := ⟨rfl, operandBytesRead_name _, classify_opcodeMap _⟩
theorem int : Statement (.int) := ⟨rfl, operandBytesRead_name _, classify_opcodeMap _⟩
theorem iret : Statement (.iret) := ⟨rfl, operandBytesRead_name _, classify_opcodeMap _⟩
theorem jmp : Statement (.jmp) := ⟨rfl, operandBytesRead_name _, classify_opcodeMap _⟩
theorem jeq : Statement (.jeq) := ⟨rfl, operandBytesRead_name _, classify_opcodeMap _⟩
theorem jne : Statement (.jne) := ⟨rfl, operandBytesRead_name _, classify_opcodeMap _⟩
theorem jgt : Statement (.jgt) := ⟨rfl, operandBytesRead_name _, classify_opcodeMap _⟩
theorem jlt : Statement (.jlt) := ⟨rfl, operandBytesRead_name _, classify_opcodeMap _⟩
theorem jle : Statement (.jle) := ⟨rfl, operandBytesRead_name _, classify_opcodeMap _⟩
theorem jge : Statement (.jge) := ⟨rfl, operandBytesRead_name _, classify_opcodeMap _⟩
theorem ld : Statement (.ld) := ⟨rfl, operandBytesRead_name _, classify_opcodeMap _⟩
theorem st : Statement (.st) := ⟨rfl, operandBytesRead_name _, classify_opcodeMap _⟩

end Sys2Proof.Laws.Shape
end

