-- ==== Sys2Proof/Laws/Step.lean ====
section
/-! SUPPORT. The fetch and the step: what the fetched bytes are, and what a step can do. -/

namespace Sys2Proof.Machine

theorem readBytes_zero (s : State) (a : Nat) : s.readBytes a 0 = [] := rfl

theorem readBytes_succ {s : State} {a n : Nat} (h : a < 256) :
    s.readBytes a (n + 1) = s.mem.read a :: s.readBytes (a + 1) n := by
  simp [State.readBytes, Config.memSize, h]

theorem readBytes_end {s : State} {a n : Nat} (h : 256 ≤ a) : s.readBytes a n = [] := by
  cases n with
  | zero => rfl
  | succ n => simp [State.readBytes, Config.memSize, Nat.not_lt.mpr h]

theorem readBytes_length_le (s : State) (a n : Nat) : (s.readBytes a n).length ≤ n := by
  induction n generalizing a with
  | zero => simp [readBytes_zero]
  | succ n ih =>
    by_cases ha : a < 256
    · rw [readBytes_succ ha]; simpa using ih (a + 1)
    · rw [readBytes_end (by omega)]; simp

/-- Bytes that would run past address 255 are not read (spec/20_memory.md R56). -/
theorem readBytes_short {s : State} {a n : Nat} (h : 256 < a + n) : (s.readBytes a n).length < n ∨ n = 0 := by
  induction n generalizing a with
  | zero => exact .inr rfl
  | succ n ih =>
    refine .inl ?_
    by_cases ha : a < 256
    · rw [readBytes_succ ha]
      rcases ih (a := a + 1) (by omega) with h | rfl
      · simpa using h
      · omega
    · rw [readBytes_end (by omega)]; simp

/-- All the bytes asked for: each is its cell's, within addresses 0..255. -/
theorem readBytes_full {s : State} {a n : Nat} {l : List Byte} (h : s.readBytes a n = l) (hl : l.length = n) :
    (n = 0 ∨ a + n ≤ 256) ∧ ∀ (k : Nat) (hk : k < l.length), s.mem.read (a + k) = l[k] := by
  induction n generalizing a l with
  | zero => exact ⟨.inl rfl, fun k hk => by omega⟩
  | succ n ih =>
    by_cases ha : a < 256
    · rw [readBytes_succ ha] at h
      subst h
      obtain ⟨h1, h2⟩ := ih (a := a + 1) rfl (by simpa using hl)
      refine ⟨.inr (by omega), fun k hk => ?_⟩
      cases k with
      | zero => rfl
      | succ k => simpa [Nat.add_assoc, Nat.add_comm 1] using h2 k (by simpa using hk)
    · rw [readBytes_end (by omega)] at h
      subst h
      simp at hl

/-- The fetch where classification faults (spec/40_cycle.md R101). -/
theorem fetch_of_classify_error {s : State} {e : DecodeError} (h : classify (s.memRead s.pc) = .error e) :
    s.fetch = .error (decodeFault e) := by
  have h' : classifyIn opcodeMap (s.memRead s.pc) = .error e := h
  simp only [State.fetch, decode, State.instrBytes, decodeIn, h']

/-- The fetch of a classified byte takes the operand bytes of its slot (R102). -/
theorem fetch_of_classify {s : State} {n : OpName} (h : classify (s.memRead s.pc) = .ok n) :
    s.fetch = match takeOperands n (s.readBytes (s.pc.toNat + 1) (operandBytesRead (opcodeMap n))) with
      | .ok (i, _) => .ok i
      | .error e => .error (decodeFault e) := by
  have h' : classifyIn opcodeMap (s.memRead s.pc) = .ok n := h
  simp only [State.fetch, decode, State.instrBytes, decodeIn, h', ← opcode_of_classify h] <;> rfl

/-- The bytes at pc are those of the fetched instruction. -/
theorem spells_of_fetch {s : State} {i : Instr} (h : s.fetch = .ok i) : Spells s i := by
  cases hc : classify (s.memRead s.pc) with
  | error e => rw [fetch_of_classify_error hc] at h; cases h
  | ok n =>
    rw [fetch_of_classify hc] at h
    split at h
    · next j rest hd =>
      cases h
      obtain ⟨hn, hb⟩ := takeOperands_ok hd
      have hop := opcode_of_classify hc
      rw [← hn] at hop hb
      rw [operandBytesRead_name] at hb
      have hlen := readBytes_length_le s (s.pc.toNat + 1) i.operands.length
      rw [hb] at hlen
      have hr : rest = [] := by
        cases rest with
        | nil => rfl
        | cons => simp at hlen
      rw [hr, List.append_nil] at hb
      obtain ⟨h2, h3⟩ := readBytes_full hb rfl
      have := s.pc.isLt
      refine ⟨by simp only [encode, encodeIn, List.length_cons]; omega, fun k hk => ?_⟩
      cases k with
      | zero => exact hop
      | succ k =>
        simpa [encode, encodeIn, Nat.add_assoc, Nat.add_comm 1] using h3 k (by simpa [encode, encodeIn] using hk)
    · cases h

theorem spells_opcode {s : State} {i : Instr} (h : Spells s i) : s.mem.read s.pc.toNat = opcodeMap i.name := by
  simpa [encode, encodeIn] using h.2 0 (by simp [encode, encodeIn])

theorem spells_first {s : State} {i : Instr} {a : Byte} {l : List Byte} (h : Spells s i) (ho : i.operands = a :: l) :
    s.mem.read (s.pc.toNat + 1) = a := by
  simpa [encode, encodeIn, ho] using h.2 1 (by simp [encode, encodeIn, ho])

theorem step_fetching {s : State} (h : s.run = .fetching) :
    step s = match s.fetch with
      | .ok i => exec i s
      | .error k => s.commit (.error k) := by
  unfold step
  rw [h] <;> rfl

theorem step_of_fetch_ok {s : State} {i : Instr} (h : s.run = .fetching) (hf : s.fetch = .ok i) :
    step s = exec i s := by
  simp [step, h, hf]

theorem step_of_fetch_error {s : State} {k : FaultKind} (h : s.run = .fetching) (hf : s.fetch = .error k) :
    FaultsWith (step s) s k := by
  simp [step, h, hf, FaultsWith, State.raise, State.memRead]

/-- What a step that answers a next state is: it ran from FETCHING, and took the fault of the fetch or had the effect of
the fetched instruction. -/
theorem step_cases {s t : State} (h : step s = .next t) :
    s.run = .fetching ∧ ((∃ k, s.fetch = .error k ∧ t = s.raise k) ∨ ∃ i, s.fetch = .ok i ∧ Effect s i t) := by
  cases hr : s.run with
  | fetching =>
    rw [step_fetching hr] at h
    cases hf : s.fetch with
    | ok i => rw [hf] at h; exact ⟨rfl, .inr ⟨i, rfl, exec_effect h⟩⟩
    | error k => rw [hf] at h; cases h; exact ⟨rfl, .inl ⟨k, rfl, rfl⟩⟩
  | halted | faulted | executing => simp [step, hr] at h

/-- While the core runs there is a next state. -/
theorem step_next {s : State} (h : s.run = .fetching) : ∃ t, step s = .next t := by
  rw [step_fetching h]
  cases s.fetch with
  | ok i => exact exec_next i s
  | error k => exact ⟨_, rfl⟩

/-- A run of one step more, from its first step. -/
theorem run_succ (s : State) (k : Nat) :
    Host.Core.run Sys2Proof.core (k + 1) s = match Sys2Proof.core.step s with
      | .next t => Host.Core.run Sys2Proof.core k t
      | .fault r => .fault r
      | .refused r => .refused r := by
  simp only [Host.Core.run]
  cases Sys2Proof.core.step s <;> rfl

theorem run_succ_of_step {s t : State} {k : Nat} (h : step s = .next t) :
    Host.Core.run Sys2Proof.core (k + 1) s = Host.Core.run Sys2Proof.core k t := by
  rw [run_succ, show Sys2Proof.core.step s = .next t from h]

/-- A run of one step more, to its last step. -/
theorem run_succ_last {k : Nat} {s t : State} (h : Host.Core.run Sys2Proof.core k s = .next t) :
    Host.Core.run Sys2Proof.core (k + 1) s = step t := by
  induction k generalizing s with
  | zero =>
    cases h
    rw [run_succ]
    show _ = Sys2Proof.core.step t
    cases Sys2Proof.core.step t <;> rfl
  | succ k ih =>
    rw [run_succ] at h ⊢
    cases hs : Sys2Proof.core.step s with
    | next u => rw [hs] at h; exact ih h
    | fault r => rw [hs] at h; cases h
    | refused r => rw [hs] at h; cases h

end Sys2Proof.Machine
end

