-- ==== Sys2Proof/Tests/Slice0.lean ====
section
/-! SUPPORT. The model's own tests: ill-formed terms refused, decoding from words written out from the spec's tables, one
step per vector of spec/95_test_vectors.md (its ids name the tests), the host interface, and for each obligation with
hypotheses a witness that meets them, at the boundary values of its clauses. -/

namespace Sys2Proof.Tests

open Sys2Proof.Machine

/-! ## Helpers -/

/-- A running state: pc, the bytes from pc on, and R0..R7 (the last is SP). -/
def at_ (pc : Byte) (bytes : List Byte) (regs : Vector Byte 8) : State :=
  { regs := regs, pc := pc, mem := Memory.ofImage pc.toNat bytes, run := .fetching, fault := none, out := [] }

/-- R0 = x, R1 = y, the stack empty. -/
def two (x y : Byte) : Vector Byte 8 := #v[x, y, 0, 0, 0, 0, 0, 0xF4]

/-- R1 = x and SP. -/
def withSp (x sp : Byte) : Vector Byte 8 := #v[0, x, 0, 0, 0, 0, 0, sp]

/-- What a step's next state shows of itself. -/
def shows {α : Type} (view : State → α) (o : Host.Outcome State Fault Refusal) : Option α :=
  match o with
  | .next t => some (view t)
  | .fault _ => none
  | .refused _ => none

/-- After one step: a register and the pc. -/
def regPc (i : RegIdx) (s : State) : Option (Nat × Nat) := shows (fun t => ((t.reg i).toNat, t.pc.toNat)) (step s)

/-- After one step: the fault record. -/
def faultOf (s : State) : Option (Option FaultRecord) := shows (fun t => t.fault) (step s)

/-- After one step: SP, a cell and the pc. -/
def stackPc (a : Nat) (s : State) : Option (Nat × Nat × Nat) :=
  shows (fun t => (t.sp.toNat, (t.mem.read a).toNat, t.pc.toNat)) (step s)

/-! ## WellFormed refuses an index above 7 in every register operand (spec/30_encoding.md R73) -/

theorem test_wellFormed_refuses_first_operand :
    [Instr.add 8 0, .sub 8 0, .mul 8 0, .div 8 0, .mod 8 0, .cmp 8 0, .and 8 0, .or 8 0, .xor 8 0, .shl 8 0,
     .shr 8 0, .inc 8, .dec 8, .not 8, .ldi 8 0, .prn 8, .push 255, .pop 8, .call 8].all
      (fun i => !i.wellFormed) = true := by decide

theorem test_wellFormed_refuses_second_operand :
    [Instr.add 0 8, .sub 0 8, .mul 0 8, .div 0 8, .mod 0 8, .cmp 0 8, .and 0 8, .or 0 8, .xor 0 8, .shl 0 8,
     .shr 0 255].all (fun i => !i.wellFormed) = true := by decide

/-- LDI's second operand is an immediate. -/
theorem test_wellFormed_accepts : ([Instr.add 7 7, .inc 7, .ldi 7 255, .nop, .ld].all Instr.wellFormed) = true := by decide

/-! ## Decoding, from the binary columns of spec/30_encoding.md R78, R79, R82 -/

theorem test_decode_alu_two_registers :
    decode [0b10100000, 0, 1] = .ok (.add 0 1, []) ∧ decode [0b10100001, 2, 3] = .ok (.sub 2 3, []) ∧
    decode [0b10100010, 4, 5] = .ok (.mul 4 5, []) ∧ decode [0b10100011, 6, 7] = .ok (.div 6 7, []) ∧
    decode [0b10100100, 1, 0] = .ok (.mod 1 0, []) ∧ decode [0b10100111, 3, 2] = .ok (.cmp 3 2, []) ∧
    decode [0b10101000, 5, 4] = .ok (.and 5 4, []) ∧ decode [0b10101010, 7, 6] = .ok (.or 7 6, []) ∧
    decode [0b10101011, 0, 7] = .ok (.xor 0 7, []) ∧ decode [0b10101100, 1, 6] = .ok (.shl 1 6, []) ∧
    decode [0b10101101, 2, 5] = .ok (.shr 2 5, []) := ⟨rfl, rfl, rfl, rfl, rfl, rfl, rfl, rfl, rfl, rfl, rfl⟩

theorem test_decode_alu_one_register :
    decode [0b01100101, 3, 9] = .ok (.inc 3, [9]) ∧ decode [0b01100110, 4] = .ok (.dec 4, []) ∧
    decode [0b01101001, 5] = .ok (.not 5, []) := ⟨rfl, rfl, rfl⟩

theorem test_decode_handlers :
    decode [0b00000000, 1] = .ok (.nop, [1]) ∧ decode [0b00000001] = .ok (.hlt, []) ∧
    decode [0b10000010, 0, 8] = .ok (.ldi 0 8, []) ∧ decode [0b01000111, 1] = .ok (.prn 1, []) ∧
    decode [0b01000101, 2] = .ok (.push 2, []) ∧ decode [0b01000110, 3] = .ok (.pop 3, []) ∧
    decode [0b01010000, 4] = .ok (.call 4, []) := ⟨rfl, rfl, rfl, rfl, rfl, rfl, rfl⟩

theorem test_decode_absent :
    decode [0b01001000] = .ok (.pra, []) ∧ decode [0b00010001] = .ok (.ret, []) ∧
    decode [0b01010010] = .ok (.int, []) ∧ decode [0b00010011] = .ok (.iret, []) ∧
    decode [0b01010100] = .ok (.jmp, []) ∧ decode [0b01010101] = .ok (.jeq, []) ∧
    decode [0b01010110] = .ok (.jne, []) ∧ decode [0b01010111] = .ok (.jgt, []) ∧
    decode [0b01011000] = .ok (.jlt, []) ∧ decode [0b01011001] = .ok (.jle, []) ∧
    decode [0b01011010] = .ok (.jge, []) ∧ decode [0b10000011] = .ok (.ld, []) ∧
    decode [0b10000100] = .ok (.st, []) := ⟨rfl, rfl, rfl, rfl, rfl, rfl, rfl, rfl, rfl, rfl, rfl, rfl, rfl⟩

/-- Unknown bytes are rejected by name, by bit 5 (R77); missing operand bytes too (spec/40_cycle.md R102). -/
theorem test_decode_rejects :
    decode [0x20] = .error .unsupportedALUOperation ∧ decode [0x02] = .error .fatalDecodeError ∧
    decode [0xC0] = .error .fatalDecodeError ∧ decode [0xA0, 0] = .error .truncated ∧
    decode [] = .error .truncated := ⟨rfl, rfl, rfl, rfl, rfl⟩

/-- Opcode-table words: the first byte in the lowest bits, operand bytes the table does not number read as 0. -/
theorem test_decodeTableWord :
    decodeTableWord 24 0x0100A3 = some (.div 0 1) ∧ decodeTableWord 8 0xA0 = some (.add 0 0) ∧
    decodeTableWord 16 0x0347 = some (.prn 3) ∧ decodeTableWord 16 0x0111 = some .ret ∧
    decodeTableWord 8 0x20 = none := ⟨rfl, rfl, rfl, rfl, rfl⟩

/-- A table word placed at reset is the first instruction. -/
theorem test_withFetchWord_at_reset :
    step (State.reset.withFetchWord 24 0x010082) = exec (.ldi 0 1) (State.reset.withFetchWord 24 0x010082) ∧
    step (State.reset.withFetchWord 8 0x11) = exec .ret (State.reset.withFetchWord 8 0x11) := ⟨rfl, rfl⟩

/-! ## Decode and cycle vectors (spec/95_test_vectors.md section 2) -/

theorem test_V1_V4_classification :
    faultOf (at_ 0 [0x20] (two 0 0)) = some (some ⟨.unsupportedALUOperation, 0, 0x20⟩) ∧
    faultOf (at_ 0 [0xC0] (two 0 0)) = some (some ⟨.fatalDecodeError, 0, 0xC0⟩) := ⟨rfl, rfl⟩

theorem test_V7_V8_V9_end_of_memory :
    faultOf (at_ 0xFE [0xA0] (two 1 2)) = some (some ⟨.memoryOutOfRange, 0xFE, 0xA0⟩) ∧
    faultOf (at_ 0xFD [0xA0, 0, 1] (two 1 2)) = some (some ⟨.memoryOutOfRange, 0xFD, 0xA0⟩) ∧
    regPc 0 (at_ 0xFC [0xA0, 0, 1] (two 1 2)) = some (3, 0xFF) := ⟨rfl, rfl, rfl⟩

theorem test_V13_V14_priority :
    faultOf (at_ 0 [0xA3, 9, 0] (two 0 0)) = some (some ⟨.registerOutOfRange, 0, 0xA3⟩) ∧
    faultOf (at_ 0xFD [0xA3, 0, 1] (two 5 0)) = some (some ⟨.divisionByZero, 0xFD, 0xA3⟩) := ⟨rfl, rfl⟩

/-! ## ALU vectors (section 3) -/

theorem test_A1_add : regPc 0 (at_ 0 [0xA0, 0, 1] (two 200 100)) = some (44, 3) := by decide
theorem test_A4_add_to_sp : regPc 7 (at_ 0 [0xA0, 7, 0] (#v[0x10, 0, 0, 0, 0, 0, 0, 0xF0])) = some (0, 3) := by decide
theorem test_A5_sub : regPc 0 (at_ 0 [0xA1, 0, 1] (two 5 7)) = some (254, 3) := by decide
theorem test_A8_mul : regPc 0 (at_ 0 [0xA2, 0, 1] (two 255 255)) = some (1, 3) := by decide
theorem test_A10_div : regPc 0 (at_ 0 [0xA3, 0, 1] (two 7 2)) = some (3, 3) := by decide

/-- A13, A14, A15: DIV under SOURCE_B_BY_A. -/
theorem test_A13_div_source_order :
    shows (fun t => (t.reg 0).toNat) (execDivIn .sourceBByA 0 1 (at_ 0 [0xA3, 0, 1] (two 2 7))) = some 3 ∧
    shows (fun t => t.fault) (execDivIn .sourceBByA 0 1 (at_ 0 [0xA3, 0, 1] (two 0 7))) =
      some (some ⟨.divisionByZero, 0, 0xA3⟩) ∧
    shows (fun t => (t.reg 0).toNat) (execDivIn .sourceBByA 0 1 (at_ 0 [0xA3, 0, 1] (two 7 0))) = some 0 := by decide

theorem test_A18_mod : regPc 0 (at_ 0 [0xA4, 0, 1] (two 3 7)) = some (3, 3) := by decide
theorem test_A19_mod_by_zero :
    faultOf (at_ 0 [0xA4, 0, 1] (two 5 0)) = some (some ⟨.divisionByZero, 0, 0xA4⟩) := by decide
theorem test_A20_inc : regPc 3 (at_ 0 [0x65, 3] (#v[0, 0, 0, 255, 0, 0, 0, 0xF4])) = some (0, 2) := by decide
theorem test_A24_dec : regPc 3 (at_ 0 [0x66, 3] (#v[0, 0, 0, 0, 0, 0, 0, 0xF4])) = some (255, 2) := by decide
theorem test_A25_and : regPc 0 (at_ 0 [0xA8, 0, 1] (two 0xF0 0x3C)) = some (0x30, 3) := by decide
theorem test_A26_or : regPc 0 (at_ 0 [0xAA, 0, 1] (two 0xF0 0x0F)) = some (0xFF, 3) := by decide
theorem test_A27_xor : regPc 0 (at_ 0 [0xAB, 0, 1] (two 0xFF 0x0F)) = some (0xF0, 3) := by decide
theorem test_A29_not : regPc 2 (at_ 0 [0x69, 2] (#v[0, 0, 0x0F, 0, 0, 0, 0, 0xF4])) = some (0xF0, 2) := by decide
theorem test_A31_shl : regPc 0 (at_ 0 [0xAC, 0, 1] (two 0x81 1)) = some (0x02, 3) := by decide
theorem test_A33_shl_by_width : regPc 0 (at_ 0 [0xAC, 0, 1] (two 0x01 8)) = some (0, 3) := by decide
theorem test_A35_shr : regPc 0 (at_ 0 [0xAD, 0, 1] (two 0x81 1)) = some (0x40, 3) := by decide
theorem test_A37_shr_by_width : regPc 0 (at_ 0 [0xAD, 0, 1] (two 0xFF 8)) = some (0, 3) := by decide
theorem test_A39_cmp :
    step (at_ 10 [0xA7, 0, 1] (two 1 2)) = .next { at_ 10 [0xA7, 0, 1] (two 1 2) with pc := 13 } := rfl
theorem test_A40_cmp_bad_register :
    faultOf (at_ 10 [0xA7, 0, 8] (two 0 0)) = some (some ⟨.registerOutOfRange, 10, 0xA7⟩) := by decide

/-! ## Handler vectors (sections 4 to 6) -/

theorem test_H1_V10_nop :
    regPc 0 (at_ 7 [0x00] (two 0 0)) = some (0, 8) ∧
    faultOf (at_ 0xFF [0x00] (two 0 0)) = some (some ⟨.memoryOutOfRange, 0xFF, 0x00⟩) := by decide
theorem test_H2_V11_hlt :
    shows (fun t => (t.run, t.pc.toNat)) (step (at_ 12 [0x01] (two 0 0))) = some (.halted, 12) ∧
    shows (fun t => (t.run, t.pc.toNat)) (step (at_ 0xFF [0x01] (two 0 0))) = some (.halted, 0xFF) := by decide
theorem test_H3_ldi : regPc 0 (at_ 0 [0x82, 0, 8] (two 0 0)) = some (8, 3) := by decide
theorem test_H4_ldi_sp : stackPc 0 (at_ 0 [0x82, 7, 0] (two 0 0)) = some (0, 0x82, 3) := by decide
theorem test_H8_H9_prn :
    shows (fun t => (t.out, t.pc.toNat)) (step (at_ 0 [0x47, 0] (two 72 0))) = some ([72], 2) ∧
    shows (fun t => (t.out, t.run)) (step (at_ 0xFE [0x47, 0] (two 72 0))) = some ([], .faulted) := by decide
theorem test_S1_S5_push :
    stackPc 0xF3 (at_ 0 [0x45, 1] (withSp 9 0xF4)) = some (0xF3, 9, 2) ∧
    stackPc 0xF3 (at_ 0 [0x45, 7] (withSp 9 0xF4)) = some (0xF3, 0xF3, 2) := by decide
theorem test_S3_S4_S6_push_faults :
    faultOf (at_ 0 [0x45, 1] (withSp 9 0)) = some (some ⟨.stackOverflow, 0, 0x45⟩) ∧
    faultOf (at_ 0 [0x45, 1] (withSp 9 0xF5)) = some (some ⟨.stackUnderflow, 0, 0x45⟩) ∧
    faultOf (at_ 0 [0x45, 9] (withSp 9 0)) = some (some ⟨.registerOutOfRange, 0, 0x45⟩) := by decide
theorem test_S7_S10_pop :
    shows (fun t => ((t.reg 2).toNat, t.sp.toNat, (t.mem.read 0xF3).toNat))
      (step ((at_ 0 [0x46, 2] (withSp 0 0xF3)).memWrite 0xF3 9)) = some (9, 0xF4, 9) ∧
    stackPc 0xF3 ((at_ 0 [0x46, 7] (withSp 0 0xF3)).memWrite 0xF3 0xFF) = some (0, 0xFF, 2) := by decide
theorem test_S8_pop_empty : faultOf (at_ 0 [0x46, 2] (withSp 0 0xF4)) = some (some ⟨.stackUnderflow, 0, 0x46⟩) := by decide
theorem test_K1_K5_call :
    stackPc 0xF3 (at_ 4 [0x50, 1] (withSp 0x10 0xF4)) = some (0xF3, 6, 0x10) ∧
    stackPc 0xF3 (at_ 6 [0x50, 7] (withSp 0 0xF4)) = some (0xF3, 8, 0xF3) := by decide
theorem test_K3_K7_K8_call_faults :
    faultOf (at_ 0xFE [0x50, 1] (withSp 0x10 0xF4)) = some (some ⟨.memoryOutOfRange, 0xFE, 0x50⟩) ∧
    faultOf (at_ 0xFE [0x50, 1] (withSp 0x10 0)) = some (some ⟨.stackOverflow, 0xFE, 0x50⟩) ∧
    faultOf (at_ 4 [0x50, 1] (withSp 0x10 0xF8)) = some (some ⟨.stackUnderflow, 4, 0x50⟩) := by decide

/-- The numeric codes of spec/60_exceptions.md R200. -/
theorem test_fault_codes :
    [FaultKind.fatalDecodeError, .unsupportedALUOperation, .divisionByZero, .stackOverflow, .stackUnderflow,
     .memoryOutOfRange, .registerOutOfRange].map FaultKind.code = [1, 2, 3, 4, 5, 6, 7] := rfl

/-! ## Absent opcodes (section 7) -/

/-- U1 to U13: every slot, with `00 01` after it. -/
theorem test_U1_to_U13_absent :
    ([0x48, 0x11, 0x52, 0x13, 0x54, 0x55, 0x56, 0x57, 0x58, 0x59, 0x5A, 0x83, 0x84] : List Byte).all
      (fun op => faultOf (at_ 3 [op, 0, 1] (two 0 0)) == some (some ⟨.fatalDecodeError, 3, op⟩)) = true := by decide
/-- U14: PRA at the last address, not MemoryOutOfRange. -/
theorem test_U14_pra_at_end : faultOf (at_ 0xFF [0x48] (two 0 0)) = some (some ⟨.fatalDecodeError, 0xFF, 0x48⟩) := by decide

/-! ## The host interface (spec/70_reset_and_hazards.md R241 to R245, spec/30_encoding.md R85, R86) -/

/-- The first two lines of W2's image text, a comment and a blank line between. -/
theorem test_W2_image_text :
    (loadText (fun _ => 5) "10000010\n# LDI\n\n00001000".toList).map
      (fun s => ((s.mem.read 0).toNat, (s.mem.read 1).toNat, (s.mem.read 2).toNat, (s.reg 6).toNat, s.sp.toNat)) =
      some (0x82, 8, 0, 5, 0xF4) := by decide
/-- D24: a line too short after a good one, a character that is no binary digit, text after the 8 digits. -/
theorem test_image_text_refused :
    loadText (fun _ => 0) "10000010\n1000001".toList = none ∧ loadText (fun _ => 0) "10000012".toList = none ∧
    loadText (fun _ => 0) "10000010 # LDI".toList = none := by decide
/-- R85's own lines. -/
theorem test_assemble :
    assemble "LDI R0 8".toList = some (.ldi 0 8) ∧ assemble "MUL R0, R1".toList = some (.mul 0 1) ∧
    assemble "LDI R3,0xFF".toList = some (.ldi 3 255) ∧ assemble "PRN R8".toList = none ∧
    assemble "HLT".toList = some .hlt := by decide
/-- R31: an output byte is shown in decimal. -/
theorem test_output_lines : ({ at_ 0 [] (two 0 0) with out := [72, 0] } : State).outputLines = ["72".toList, "0".toList] := by
  decide

/-! ## Witnesses: for each obligation with hypotheses, states and operands that meet them all, at the values where its
clauses meet -/

/-- A legal opcode map other than the adopted one: the values of ADD and SUB exchanged. -/
def otherMap (n : OpName) : Byte := if n = .add then 0xA1 else if n = .sub then 0xA0 else opcodeMap n

theorem otherMap_classifies (n : OpName) : classifyIn otherMap (otherMap n) = .ok n := by cases n <;> decide

theorem witness_DecodeOfEncodeIsIdentity : OpcodeMap.Legal otherMap where
  distinct n k h := by
    have hn := otherMap_classifies n
    rw [h, otherMap_classifies k] at hn
    cases hn
    rfl
  operandField n := by cases n <;> decide
  aluField n := by cases n <;> decide

theorem witness_DecodedBytesAreTheEncoding :
    decodeIn otherMap [0xA1, 0, 9, 7] = .ok (.add 0 9, [7]) ∧ decodeIn opcodeMap [0x11, 1] = .ok (.ret, [1]) := ⟨rfl, rfl⟩

theorem witness_LoadPlacesImageAndZeroesTheRest : ∃ img : List Byte, img.length = 256 ∧ img.length ≤ 256 :=
  ⟨List.replicate 256 1, List.length_replicate, Nat.le_of_eq List.length_replicate⟩

/-- A blank line that is not empty, and bad lines: too short, and of 8 characters with one that is not binary. -/
theorem witness_ImageLinesGiveTheirBytes :
    (∃ l : Text, l ≠ [] ∧ ∀ c ∈ l, c ∈ [' ', '\t', '\r']) ∧
    ∀ l ∈ ["1".toList, "1000001x".toList], l ∈ ["10000001".toList, l] ∧ l.head? ≠ some '#' ∧
      (∃ c ∈ l, c ∉ [' ', '\t', '\r']) ∧ (l.length ≠ 8 ∨ ∃ c ∈ l, c ≠ '0' ∧ c ≠ '1') := by
  refine ⟨⟨[' '], by simp, by simp⟩, fun l hl => ?_⟩
  simp only [List.mem_cons, List.not_mem_nil, or_false] at hl
  obtain rfl | rfl := hl
  · exact ⟨by simp, by simp, ⟨'1', by simp, by simp⟩, .inl (by simp)⟩
  · exact ⟨by simp, by simp, ⟨'1', by simp, by simp⟩, .inr ⟨'x', by simp, by simp⟩⟩

theorem witness_ExitStatus_and_StepExists :
    (∃ s : State, s.run = .fetching) ∧ (∃ s : State, s.run = .halted) ∧ (∃ s : State, s.run = .faulted) ∧
    ∃ s : State, s.run = .executing :=
  ⟨⟨at_ 0 [] (two 0 0), rfl⟩, ⟨(at_ 0 [] (two 0 0)).halt, rfl⟩, ⟨(at_ 0 [] (two 0 0)).raise .stackOverflow, rfl⟩,
    ⟨{ at_ 0 [] (two 0 0) with run := .executing }, rfl⟩⟩

/-- Instructions of every length, the longest ending at address 255. -/
theorem witness_StepRunsTheInstructionAtPc :
    (∃ s : State, s.run = .fetching ∧ Spells s (.add 0 1)) ∧ (∃ s : State, s.run = .fetching ∧ Spells s (.pop 9)) ∧
    ∃ s : State, s.run = .fetching ∧ Spells s .st :=
  ⟨⟨at_ 0xFD [0xA0, 0, 1] (two 0 0), by unfold Spells; decide⟩, ⟨at_ 0xFE [0x46, 9] (two 0 0), by unfold Spells; decide⟩,
    ⟨at_ 0xFF [0x84] (two 0 0), by unfold Spells; decide⟩⟩

theorem witness_PlacedTableWordIsTheNextInstruction :
    ∃ s : State, s.run = .fetching ∧ s.mem.wf = true ∧ s.pc.toNat = 253 ∧ s.pc.toNat ≤ 253 ∧
      decodeTableWord 24 0x0100A3 = some (.div 0 1) :=
  ⟨at_ 253 [1, 2, 3] (two 0 0), by decide⟩

/-- Both kinds, at both ends of memory. -/
theorem witness_OpcodeOutsideTheTablesFaults :
    (∃ s : State, s.run = .fetching ∧ (s.mem.read s.pc.toNat).toNat ∉ tableOpcodes ∧ s.pc = 0 ∧
      (s.mem.read s.pc.toNat).getLsbD 5 = true) ∧
    ∃ s : State, s.run = .fetching ∧ (s.mem.read s.pc.toNat).toNat ∉ tableOpcodes ∧ s.pc = 255 ∧
      (s.mem.read s.pc.toNat).getLsbD 5 = false :=
  ⟨⟨at_ 0 [0xFF] (two 0 0), by decide⟩, ⟨at_ 255 [0x11] (two 0 0), by decide⟩⟩

theorem witness_OperandBytesPastTheEndFault :
    (∃ s : State, s.run = .fetching ∧ (s.mem.read s.pc.toNat).toNat ∈ tableOpcodes ∧
      s.pc.toNat + (s.mem.read s.pc.toNat).toNat / 64 = 256 ∧ s.pc.toNat = 254) ∧
    ∃ s : State, s.run = .fetching ∧ (s.mem.read s.pc.toNat).toNat ∈ tableOpcodes ∧
      s.pc.toNat + (s.mem.read s.pc.toNat).toNat / 64 = 256 ∧ s.pc.toNat = 255 :=
  ⟨⟨at_ 254 [0x82, 0] (two 0 0), by decide⟩, ⟨at_ 255 [0x50] (two 0 0), by decide⟩⟩

theorem witness_IllFormedInstructionsAreRegisterOutOfRange :
    (at_ 255 [] (two 0 0)).run = .fetching ∧ (Instr.add 0 8).wellFormed = false ∧ (Instr.pop 7).wellFormed = true := by decide

/-- The clauses of the two-register rule, for a result that always exists: an index of 8, and pc at 253 and 252. -/
theorem witness_TwoRegisterRule (f : Nat → Nat → Nat) :
    (8 ≤ (8 : Byte).toNat ∨ 8 ≤ (0 : Byte).toNat) ∧ (8 ≤ (0 : Byte).toNat ∨ 8 ≤ (8 : Byte).toNat) ∧
    ∀ p ∈ [(252 : Byte), 253], ∃ (s : State) (v : Nat), s.pc = p ∧
      (fun x y => some (f x y)) (s.reg 0).toNat (s.reg 1).toNat = some v :=
  ⟨.inl (by decide), .inr (by decide), fun p _ => ⟨at_ p [] (two 1 2), f 1 2, rfl, rfl⟩⟩

/-- DIV, in both orders, and MOD: a divisor of 0, and a divisor of 1 at pc 252 and 253. -/
theorem witness_DivFloorsInEitherOperandOrder :
    (∃ s : State, (if (s.reg 1).toNat = 0 then none else some ((s.reg 0).toNat / (s.reg 1).toNat)) = none) ∧
    (∃ s : State, (if (s.reg 0).toNat = 0 then none else some ((s.reg 1).toNat / (s.reg 0).toNat)) = none) ∧
    ∀ p ∈ [(252 : Byte), 253], ∃ s : State, s.pc = p ∧
      (if (s.reg 1).toNat = 0 then none else some ((s.reg 0).toNat / (s.reg 1).toNat)) = some 1 ∧
      (if (s.reg 0).toNat = 0 then none else some ((s.reg 1).toNat / (s.reg 0).toNat)) = some 1 := by
  refine ⟨⟨at_ 0 [] (two 1 0), by decide⟩, ⟨at_ 0 [] (two 0 1), by decide⟩, fun p hp => ?_⟩
  simp only [List.mem_cons, List.not_mem_nil, or_false] at hp
  obtain rfl | rfl := hp
  · exact ⟨at_ 252 [] (two 1 1), by decide⟩
  · exact ⟨at_ 253 [] (two 1 1), by decide⟩

theorem witness_ModLeavesTheRemainder :
    (∃ s : State, (if (s.reg 1).toNat = 0 then none else some ((s.reg 0).toNat % (s.reg 1).toNat)) = none) ∧
    ∀ p ∈ [(252 : Byte), 253], ∃ s : State, s.pc = p ∧
      (if (s.reg 1).toNat = 0 then none else some ((s.reg 0).toNat % (s.reg 1).toNat)) = some 0 := by
  refine ⟨⟨at_ 0 [] (two 1 0), by decide⟩, fun p hp => ?_⟩
  simp only [List.mem_cons, List.not_mem_nil, or_false] at hp
  obtain rfl | rfl := hp
  · exact ⟨at_ 252 [] (two 1 1), by decide⟩
  · exact ⟨at_ 253 [] (two 1 1), by decide⟩

theorem witness_DivAndModSatisfyTheDivisionLaw : ∃ s : State, s.pc.toNat = 252 ∧ s.pc.toNat ≤ 252 ∧ s.reg 1 ≠ 0 :=
  ⟨at_ 252 [] (two 0 1), by decide⟩

/-- NOP, and the pc clauses of every one-, two- and three-byte instruction, on both sides of their bounds. -/
theorem witness_pc_bounds :
    (∃ s : State, s.pc.toNat = 255) ∧ (∃ s : State, s.pc.toNat = 254 ∧ s.pc.toNat ≤ 254 ∧ 254 ≤ s.pc.toNat) ∧
    (∃ s : State, s.pc.toNat = 253 ∧ s.pc.toNat ≤ 253 ∧ 253 ≤ s.pc.toNat) ∧ ∃ s : State, s.pc.toNat = 252 ∧ s.pc.toNat ≤ 252 :=
  ⟨⟨at_ 255 [] (two 0 0), by decide⟩, ⟨at_ 254 [] (two 0 0), by decide⟩, ⟨at_ 253 [] (two 0 0), by decide⟩,
    ⟨at_ 252 [] (two 0 0), by decide⟩⟩

/-- PUSH and CALL: SP at 0, at 1 and 0xF4 (both pc clauses, canonical memory), and at 0xF5. -/
theorem witness_PushStoresBelowTheStackPointer :
    (∃ s : State, s.sp = 0) ∧ (∃ s : State, s.sp.toNat = 0xF5 ∧ 0xF4 < s.sp.toNat) ∧
    ∀ p ∈ [(253 : Byte), 254], ∀ v ∈ [(1 : Byte), 0xF4], ∃ s : State,
      s.pc = p ∧ s.sp = v ∧ 0 < s.sp.toNat ∧ s.sp.toNat ≤ 0xF4 ∧ s.mem.wf = true := by
  refine ⟨⟨at_ 0 [] (withSp 0 0), by decide⟩, ⟨at_ 0 [] (withSp 0 0xF5), by decide⟩, fun p hp v hv => ?_⟩
  refine ⟨at_ p [] (withSp 0 v), rfl, rfl, ?_⟩
  simp only [List.mem_cons, List.not_mem_nil, or_false] at hp hv
  obtain rfl | rfl := hp <;> obtain rfl | rfl := hv <;> decide

/-- POP: SP at 0xF4, and at 0 and 0xF3 with both pc clauses. -/
theorem witness_PopLoadsFromTheStackPointer :
    (∃ s : State, s.sp.toNat = 0xF4 ∧ 0xF4 ≤ s.sp.toNat) ∧
    ∀ p ∈ [(253 : Byte), 254], ∀ v ∈ [(0 : Byte), 0xF3], ∃ s : State, s.pc = p ∧ s.sp = v ∧ s.sp.toNat < 0xF4 := by
  refine ⟨⟨at_ 0 [] (withSp 0 0xF4), by decide⟩, fun p hp v hv => ?_⟩
  refine ⟨at_ p [] (withSp 0 v), rfl, rfl, ?_⟩
  simp only [List.mem_cons, List.not_mem_nil, or_false] at hp hv
  obtain rfl | rfl := hp <;> obtain rfl | rfl := hv <;> decide

theorem witness_AbsentOpcodesFaultFatally :
    ∃ s : State, s.run = .fetching ∧ s.pc = 255 ∧ s.mem.read s.pc.toNat = 0x48 := ⟨at_ 255 [0x48] (two 0 0), by decide⟩

/-- A state for each outcome of the priority order, and one for none. -/
theorem witness_FirstFailingCheckIsTheFaultTaken :
    (at_ 0 [0x20] (two 0 0)).firstFault = some .unsupportedALUOperation ∧
    (at_ 0 [0x02] (two 0 0)).firstFault = some .fatalDecodeError ∧
    (at_ 254 [0xA0, 9] (two 0 0)).firstFault = some .memoryOutOfRange ∧
    (at_ 0 [0xA3, 9, 0] (two 0 0)).firstFault = some .registerOutOfRange ∧
    (at_ 253 [0xA3, 0, 1] (two 5 0)).firstFault = some .divisionByZero ∧
    (at_ 254 [0x50, 1] (withSp 0 0)).firstFault = some .stackOverflow ∧
    (at_ 254 [0x46, 1] (withSp 0 0xF4)).firstFault = some .stackUnderflow ∧
    (at_ 252 [0xA0, 0, 1] (two 0 0)).firstFault = none := by decide

theorem witness_FaultingStepCommitsNothing : ∃ s t : State, step s = .next t ∧ t.run = .faulted :=
  ⟨at_ 0 [0x45, 1] (withSp 9 0), _, rfl, rfl⟩

theorem witness_LoadMeetsTheBoundaryInvariant : ∃ s : State, load (fun _ => 7) [0x01, 0, 0x02] = some s := ⟨_, rfl⟩

/-- A state that meets the invariant and completes a step that writes memory, and one that faults. -/
theorem witness_EveryStepKeepsTheBoundaryInvariant :
    (∃ s t : State, s.Inv ∧ step s = .next t ∧ t.run = .fetching ∧ t.mem ≠ s.mem) ∧
    ∃ s t : State, s.Inv ∧ step s = .next t ∧ t.run = .faulted :=
  ⟨⟨at_ 0 [0x45, 1] (withSp 9 0xF4), _, ⟨by decide, by decide, by decide, fun _ h => by cases h⟩, rfl, rfl, by decide⟩,
    ⟨at_ 0 [0x46, 1] (withSp 9 0xF4), _, ⟨by decide, by decide, by decide, fun _ h => by cases h⟩, rfl, rfl⟩⟩

theorem witness_CompletedStepAdvancesPcByItsLength :
    ∃ s t : State, step s = .next t ∧ t.run ≠ .faulted ∧ (s.mem.read s.pc.toNat).toNat ∉ [0x50, 0x01] :=
  ⟨at_ 252 [0xA0, 0, 1] (two 1 2), _, rfl, by decide, by decide⟩

theorem witness_OutputGrowsOnlyByPrn : ∃ s t : State, step s = .next t ∧ t.out ≠ s.out :=
  ⟨at_ 0 [0x47, 0] (two 72 0), _, rfl, by decide⟩

theorem witness_OnlyPushAndCallChangeMemory :
    ∃ (s t : State) (a : Nat), step s = .next t ∧ t.mem.read a ≠ s.mem.read a :=
  ⟨at_ 0 [0x50, 1] (withSp 9 0xF4), _, 0xF3, rfl, by decide⟩

theorem witness_RegistersChangeOnlyAsTheInstructionNames :
    (∃ (s t : State), step s = .next t ∧ t.reg 0 ≠ s.reg 0) ∧ ∃ (s t : State), step s = .next t ∧ t.reg 7 ≠ s.reg 7 :=
  ⟨⟨at_ 0 [0xA0, 0, 1] (two 1 2), _, rfl, by decide⟩, ⟨at_ 0 [0x45, 1] (withSp 9 0xF4), _, rfl, by decide⟩⟩

theorem witness_RunEndsOnlyByHltOrFault :
    ∃ s t : State, step s = .next t ∧ (s.mem.read s.pc.toNat).toNat = 0x01 := ⟨at_ 0 [0x01] (two 0 0), _, rfl, by decide⟩

/-- Two memories that differ outside the POP's bytes and the popped cell, and two that differ in the byte after an LD,
which is not read. -/
theorem witness_StepReadsOnlyItsBytesAndThePoppedCell :
    (∃ (s : State) (m : Memory), s.run = .fetching ∧ m.read s.pc.toNat = s.mem.read s.pc.toNat ∧
      (s.mem.read s.pc.toNat).toNat ∈ tableOpcodes ∧
      (∀ k, k ≤ (s.mem.read s.pc.toNat).toNat / 64 → m.read (s.pc.toNat + k) = s.mem.read (s.pc.toNat + k)) ∧
      (s.mem.read s.pc.toNat).toNat = 0x46 ∧ m.read s.sp.toNat = s.mem.read s.sp.toNat ∧ m ≠ s.mem) ∧
    ∃ (s : State) (m : Memory), s.run = .fetching ∧ m.read s.pc.toNat = s.mem.read s.pc.toNat ∧
      (s.mem.read s.pc.toNat).toNat ∉ tableOpcodes ∧ (s.mem.read s.pc.toNat).toNat ≠ 0x46 ∧
      m.read (s.pc.toNat + 1) ≠ s.mem.read (s.pc.toNat + 1) := by
  refine ⟨⟨(at_ 0 [0x46, 2] (withSp 0 0xF3)).memWrite 0xF3 9, [(0, 0x46), (1, 2), (0x80, 1), (0xF3, 9)], rfl, by decide,
    by decide, ?_, by decide, by decide, by decide⟩, ⟨at_ 0 [0x83, 1] (two 0 0), [(0, 0x83), (1, 2)], by decide⟩⟩
  intro k hk
  have hk : k ≤ 1 := hk
  obtain rfl | rfl : k = 0 ∨ k = 1 := by omega
  · decide
  · decide

/-- Both ends of the ranges: pc 251, the empty stack and R7; pc 0, SP 1 (the store goes to the PUSH's own byte) and R0; and
SP - 1 just below and just above the POP's two bytes. -/
theorem witness_PushThenPopRestoresRegisterAndStackPointer :
    ∀ c ∈ [((251 : Byte), (0xF4 : Byte), (7 : RegIdx)), (0, 1, 0), (4, 6, 1), (4, 9, 1)], ∃ s : State, s.pc = c.1 ∧
      s.sp = c.2.1 ∧ s.Inv ∧ s.run = .fetching ∧ 0 < s.sp.toNat ∧ s.sp.toNat ≤ 0xF4 ∧ s.pc.toNat ≤ 251 ∧
      s.mem.read s.pc.toNat = 0x45 ∧ s.mem.read (s.pc.toNat + 1) = regByte c.2.2 ∧
      s.mem.read (s.pc.toNat + 2) = 0x46 ∧ s.mem.read (s.pc.toNat + 3) = regByte c.2.2 ∧
      s.sp.toNat - 1 ≠ s.pc.toNat + 2 ∧ s.sp.toNat - 1 ≠ s.pc.toNat + 3 := by
  intro c hc
  refine ⟨at_ c.1 [0x45, regByte c.2.2, 0x46, regByte c.2.2] (withSp 9 c.2.1), rfl, rfl, ?_⟩
  simp only [List.mem_cons, List.not_mem_nil, or_false] at hc
  obtain rfl | rfl | rfl | rfl := hc <;>
    exact ⟨⟨by decide, by decide, by decide, fun _ h => by cases h⟩, by decide⟩

/-- PUSH R1, POP R1 at pc 4 over its own POP: on the opcode byte (SP 7) with a value of no table, and on the operand byte
(SP 8) with the values 3, 7 and 8. -/
theorem witness_PushOverItsOwnPopIsSeenByTheNextStep :
    ∀ c ∈ [((7 : Byte), (0x20 : Byte)), (8, 3), (8, 7), (8, 8)], ∃ s : State, s.sp = c.1 ∧ s.reg 1 = c.2 ∧ s.Inv ∧
      s.run = .fetching ∧ 0 < s.sp.toNat ∧ s.sp.toNat ≤ 0xF4 ∧ s.pc.toNat ≤ 251 ∧
      s.mem.read s.pc.toNat = 0x45 ∧ s.mem.read (s.pc.toNat + 1) = regByte 1 ∧
      s.mem.read (s.pc.toNat + 2) = 0x46 ∧ s.mem.read (s.pc.toNat + 3) = regByte 1 ∧
      (s.sp.toNat - 1 = s.pc.toNat + 2 ∧ c.2.toNat ∉ tableOpcodes ∨
        s.sp.toNat - 1 = s.pc.toNat + 3 ∧ (8 ≤ c.2.toNat ∨ c.2 = regByte 3 ∨ c.2 = regByte 7)) := by
  intro c hc
  refine ⟨at_ 4 [0x45, 1, 0x46, 1] (withSp c.2 c.1), rfl, rfl, ?_⟩
  simp only [List.mem_cons, List.not_mem_nil, or_false] at hc
  obtain rfl | rfl | rfl | rfl := hc <;>
    exact ⟨⟨by decide, by decide, by decide, fun _ h => by cases h⟩, by decide⟩

theorem witness_NopMemoryRunsOffTheEnd :
    ∃ s : State, s.run = .fetching ∧ s.pc = 0 ∧ ∀ a : Nat, s.pc.toNat ≤ a → a ≤ 255 → s.mem.read a = 0 :=
  ⟨at_ 0 [] (two 1 2), rfl, rfl, fun _ _ _ => rfl⟩

/-- K10's state, and the highest address the rule names. -/
theorem witness_SelfCallInTheReservedAreaOverflowsTheStack :
    ∀ p ∈ [(0xF4 : Byte), 0xFD], ∃ s : State, s.Inv ∧ s.run = .fetching ∧ s.reg 1 = s.pc ∧ s.pc = p ∧ 0xF4 ≤ s.pc.toNat ∧
      s.pc.toNat ≤ 0xFD ∧ s.sp = 0xF4 ∧ s.mem.read s.pc.toNat = 0x50 ∧ s.mem.read (s.pc.toNat + 1) = regByte 1 := by
  intro p hp
  simp only [List.mem_cons, List.not_mem_nil, or_false] at hp
  obtain rfl | rfl := hp
  · exact ⟨at_ 0xF4 [0x50, 1] (withSp 0xF4 0xF4), ⟨by decide, by decide, by decide, fun _ h => by cases h⟩, by decide⟩
  · exact ⟨at_ 0xFD [0x50, 1] (withSp 0xFD 0xF4), ⟨by decide, by decide, by decide, fun _ h => by cases h⟩, by decide⟩

end Sys2Proof.Tests
end

section
/-! Proofs of the statements about the state: reset, the invariant of every instruction boundary, and what a step can do to
the output stream and to the registers (spec/10_state.md). -/

namespace Sys2Proof.Machine

/-! ## Reset -/

/-- Settles O1: the fields of the reset state, read off its definition; an empty memory reads as blank everywhere. -/
theorem resetLeavesStackTopAndPcZero : Obligations.ResetLeavesStackTopAndPcZero :=
  ⟨rfl, rfl, rfl, rfl, rfl, fun _ => rfl⟩

/-! ## The boundary invariant -/

namespace State.Inv

variable {s t : State}

theorem fault_eq_none (h : s.Inv) (hr : s.run ≠ .faulted) : s.fault = none :=
  Option.not_isSome_iff_eq_none.mp (mt h.recordIffFaulted.mp hr)

/-- The invariant of a boundary at which no fault has been taken. -/
theorem of_no_fault (hw : s.mem.wf = true) (hr : s.run = .fetching ∨ s.run = .halted) (hf : s.fault = none) :
    s.Inv where
  memWf := hw
  notExecuting := by rcases hr with hr | hr <;> simp [hr]
  recordIffFaulted := by rcases hr with hr | hr <;> simp [hr, hf]
  recordNamesPc r h := by simp [hf] at h

/-- Taking a fault records the pc and the byte at it (spec/60_exceptions.md R208). -/
theorem raise (hw : s.mem.wf = true) (k : FaultKind) : (s.raise k).Inv where
  memWf := hw
  notExecuting := by simp
  recordIffFaulted := by simp
  recordNamesPc r h := by
    obtain rfl : _ = r := Option.some.inj h
    exact ⟨rfl, rfl⟩

/-- Whatever an instruction does in a running state keeps the invariant. -/
theorem effect {i : Instr} (h : s.Inv) (hr : s.run = .fetching) (he : Effect s i t) : t.Inv := by
  have hf : s.fault = none := h.fault_eq_none (by simp [hr])
  have hw : t.mem.wf = true := effect_wf he h.memWf
  obtain ⟨k, rfl⟩ | ⟨-, rfl⟩ | ⟨hrun, hfault, -⟩ := effect_run he
  · exact .raise h.memWf k
  · exact .of_no_fault hw (.inr rfl) hf
  · exact .of_no_fault hw (.inl (hrun.trans hr)) (hfault.trans hf)

end State.Inv

/-- Settles O43: a step takes the fault of the fetch or has the effect of the fetched instruction, and both keep the
invariant. -/
theorem everyStepKeepsTheBoundaryInvariant : Obligations.EveryStepKeepsTheBoundaryInvariant := by
  intro s t hs h
  obtain ⟨hr, ⟨k, -, rfl⟩ | ⟨i, -, he⟩⟩ := step_cases h
  · exact .raise hs.memWf k
  · exact hs.effect hr he

/-- A loaded state is the reset state of its draw with an image that fits the memory (spec/70_reset_and_hazards.md R242,
R244). -/
theorem load_eq_some {draw : Fin 7 → Byte} {img : List Byte} {s : State} (h : load draw img = some s) :
    img.length ≤ 256 ∧ s = State.resetWith draw img := by
  unfold load at h
  split at h
  · next hl => cases h; exact ⟨hl, rfl⟩
  · cases h

/-- Settles O42: reset and load leave no fault and a canonical memory, empty or placed from an image that fits. -/
theorem resetAndLoadMeetTheBoundaryInvariant : Obligations.ResetAndLoadMeetTheBoundaryInvariant := by
  refine ⟨.of_no_fault rfl (.inl rfl) rfl, fun draw img s h => ?_⟩
  obtain ⟨hl, rfl⟩ := load_eq_some h
  have hw : (Memory.ofImage 0 img).wf = true := Memory.wfFrom_ofImage img 0 (by omega)
  exact .of_no_fault hw (.inl rfl) rfl

/-! ## The output stream -/

/-- An effect leaves the output as it was, or is PRN's, which appends the value of its register. -/
theorem effect_out {s t : State} {i : Instr} (h : Effect s i t) :
    t.out = s.out ∨ ∃ d : RegIdx, i = .prn (regByte d) ∧ t.out = s.out ++ [s.reg d] := by
  cases h with
  | prints d => exact .inr ⟨d, rfl, rfl⟩
  | faults | halts | advances | writes | pushes | pops | calls => exact .inl rfl

/-- Settles O45: of all effects only PRN's touches the output, and the fetched bytes say which register it prints. -/
theorem outputGrowsOnlyByPrn : Obligations.OutputGrowsOnlyByPrn := by
  intro s t h
  obtain ⟨-, ⟨k, -, rfl⟩ | ⟨i, hf, he⟩⟩ := step_cases h
  · exact .inl rfl
  · refine (effect_out he).imp_right ?_
    rintro ⟨d, rfl, hout⟩
    have hsp := spells_of_fetch hf
    rw [spells_opcode hsp, spells_first hsp rfl, State.regOf_regByte]
    exact ⟨rfl, hout⟩

/-! ## The registers -/

/-- A register that an effect changes is the instruction's destination, or SP of a stack operation. -/
theorem effect_reg {s t : State} {i : Instr} {j : RegIdx} (h : Effect s i t) (hj : t.reg j ≠ s.reg j) :
    destOf i = some (regByte j) ∨ i = .pop (regByte j) ∨ (i.name ∈ [.push, .pop, .call] ∧ j = 7) := by
  cases h with
  | faults | halts | advances | prints => exact absurd rfl hj
  | writes d v n hi =>
    obtain rfl : d = j := by
      by_contra hd
      exact hj (State.setReg_reg_ne s v d j hd)
    exact .inl hi
  | pops d =>
    by_cases h7 : j = 7
    · exact .inr (.inr ⟨by simp [Instr.name], h7⟩)
    · obtain rfl : d = j := by
        by_contra hd
        exact hj (by simp [State.setSp_reg, State.setReg_reg, Ne.symm h7, hd])
      exact .inr (.inl rfl)
  | pushes d | calls d =>
    refine .inr (.inr ⟨by simp [Instr.name], ?_⟩)
    by_contra h7
    exact hj (by simp [decSp_reg, h7])

/-- A destination is a register the instruction may write: the first operand byte names it, and the opcode byte is one that
`State.mayWrite` lists. -/
theorem mayWrite_of_destOf {s : State} {i : Instr} {j : RegIdx} (hs : Spells s i)
    (h : destOf i = some (regByte j)) : s.mayWrite j := by
  cases i with
  | add | sub | mul | div | mod | and | or | xor | shl | shr | ldi | inc | dec | not =>
    cases h
    exact .inl ⟨by simp [spells_opcode hs, Instr.name, opcodeMap], spells_first hs rfl⟩
  | cmp | nop | hlt | prn | push | pop | call => cases h
  | pra | ret | int | iret | jmp | jeq | jne | jgt | jlt | jle | jge | ld | st => cases h

/-- So is the register a POP names. -/
theorem mayWrite_pop {s : State} {j : RegIdx} (hs : Spells s (.pop (regByte j))) : s.mayWrite j :=
  .inl ⟨by simp [spells_opcode hs, Instr.name, opcodeMap], spells_first hs rfl⟩

/-- PUSH, POP and CALL may write SP. -/
theorem mayWrite_sp {s : State} {i : Instr} (hs : Spells s i) (h : i.name ∈ [.push, .pop, .call]) :
    s.mayWrite 7 := by
  have hop : ∀ n ∈ [OpName.push, .pop, .call], (opcodeMap n).toNat ∈ [0x45, 0x46, 0x50] := by decide
  refine .inr ⟨?_, rfl⟩
  rw [spells_opcode hs]
  exact hop _ h

/-- Settles O47: each register an effect can change is one that the bytes at pc name. -/
theorem registersChangeOnlyAsTheInstructionNames : Obligations.RegistersChangeOnlyAsTheInstructionNames := by
  intro s t j h hj
  obtain ⟨-, ⟨k, -, rfl⟩ | ⟨i, hf, he⟩⟩ := step_cases h
  · exact absurd rfl hj
  · have hs := spells_of_fetch hf
    obtain hd | rfl | ⟨hn, rfl⟩ := effect_reg he hj
    · exact mayWrite_of_destOf hs hd
    · exact mayWrite_pop hs
    · exact mayWrite_sp hs hn

end Sys2Proof.Machine
end

section
/-! Proofs of the statements about memory (spec/20_memory.md): which cell a step may change, which cells it depends on,
and a PUSH that stores to the bytes of the POP after it. -/

namespace Sys2Proof.Machine

/-! ## The cell a step changes -/

/-- A cell that an effect changes is the one a PUSH or CALL stores to. -/
theorem effect_mem {s t : State} {i : Instr} {a : Nat} (h : Effect s i t) (ha : t.mem.read a ≠ s.mem.read a) :
    i.name ∈ [.push, .call] ∧ a + 1 = s.sp.toNat := by
  cases h with
  | faults | halts | advances | writes | prints | pops => exact absurd rfl ha
  | pushes d h0 | calls d h0 =>
    refine ⟨by simp [Instr.name], ?_⟩
    have haddr : a = s.pushAddr.toNat := by
      by_contra hne
      exact ha (State.memWrite_read_ne (s := s.decSp) hne)
    rw [haddr, pushAddr_toNat h0]
    omega

/-- Settles O46: of all effects only PUSH's and CALL's store, both to SP - 1, and the byte at pc is the fetched
instruction's. -/
theorem onlyPushAndCallChangeMemory : Obligations.OnlyPushAndCallChangeMemory := by
  intro s t a h ha
  obtain ⟨-, ⟨k, -, rfl⟩ | ⟨i, hf, he⟩⟩ := step_cases h
  · exact absurd rfl ha
  · obtain ⟨hn, hsp⟩ := effect_mem he ha
    have hop : ∀ n ∈ [OpName.push, .call], (opcodeMap n).toNat ∈ [0x45, 0x50] := by decide
    rw [spells_opcode (spells_of_fetch hf)]
    exact ⟨hop _ hn, hsp⟩

/-! ## The cells a step depends on

The same staged computation, run over two memories, gives results that differ in memory alone; only the fetch, POP's load
and the opcode byte of a fault record ever read a cell. -/

/-- `s` with another memory. -/
def State.withMem (s : State) (m : Memory) : State := { s with mem := m }

/-- Two staged results that differ in memory alone: states alike in every other field, or the same fault. -/
inductive AlikeOffMemory : Except FaultKind State → Except FaultKind State → Prop
  | completes (t : State) (m : Memory) : AlikeOffMemory (.ok t) (.ok (t.withMem m))
  | faults (k : FaultKind) : AlikeOffMemory (.error k) (.error k)

namespace AlikeOffMemory

/-- A check that reads no memory, before results that are alike. -/
theorem bind {α : Type} {x : Except FaultKind α} {f g : α → Except FaultKind State}
    (h : ∀ a, AlikeOffMemory (f a) (g a)) : AlikeOffMemory (x >>= f) (x >>= g) := by
  cases x with
  | ok a => exact h a
  | error k => exact .faults k

/-- The pc update reads no memory. -/
theorem advance (t : State) (m : Memory) (n : Nat) : AlikeOffMemory (t.advance n) ((t.withMem m).advance n) := by
  by_cases h : t.pc.toNat + n + 1 ≤ 255
  · rw [advance_ok h, advance_ok (s := t.withMem m) h]
    exact .completes _ m
  · rw [advance_error (by omega), advance_error (s := t.withMem m) (Nat.lt_of_not_le h)]
    exact .faults _

end AlikeOffMemory

/-- Both outcomes are next states, alike in every field but memory. -/
def OutcomesAlike (o o' : Host.Outcome State Fault Refusal) : Prop :=
  ∃ t u, o = .next t ∧ o' = .next u ∧
    u.regs = t.regs ∧ u.pc = t.pc ∧ u.run = t.run ∧ u.fault = t.fault ∧ u.out = t.out

section Reads

variable {s : State} {m : Memory}

theorem readBytes_withMem {a n : Nat} (h : ∀ k < n, m.read (a + k) = s.mem.read (a + k)) :
    (s.withMem m).readBytes a n = s.readBytes a n := by
  induction n generalizing a with
  | zero => rfl
  | succ n ih =>
    by_cases ha : a < 256
    · have h0 : (s.withMem m).mem.read a = s.mem.read a := h 0 (by omega)
      rw [readBytes_succ ha, readBytes_succ ha, h0, ih fun k hk => ?_]
      simpa [Nat.add_assoc, Nat.add_comm 1] using h (k + 1) (by omega)
    · rw [readBytes_end (by omega), readBytes_end (by omega)]

variable (hop : m.read s.pc.toNat = s.mem.read s.pc.toNat)
include hop

/-- A commit reads memory only for the opcode byte of the fault record. -/
theorem commit_alike {r r' : Except FaultKind State} (h : AlikeOffMemory r r') :
    OutcomesAlike (s.commit r) ((s.withMem m).commit r') := by
  cases h with
  | completes t m' => exact ⟨t, t.withMem m', rfl, rfl, rfl, rfl, rfl, rfl, rfl⟩
  | faults k =>
    refine ⟨s.raise k, (s.withMem m).raise k, rfl, rfl, rfl, rfl, rfl, ?_, rfl⟩
    have hrec : (s.withMem m).memRead s.pc = s.memRead s.pc := hop
    simp only [State.raise_fault, ← hrec]
    rfl

theorem alu2_alike (f : Byte → Byte → Except FaultKind Byte) (a b : Byte) :
    OutcomesAlike (alu2 f a b s) (alu2 f a b (s.withMem m)) :=
  commit_alike hop <| .bind fun i => .bind fun _ => .bind fun v => .advance (s.setReg i v) m 2

theorem alu1_alike (g : Byte → Byte) (a : Byte) :
    OutcomesAlike (alu1 g a s) (alu1 g a (s.withMem m)) :=
  commit_alike hop <| .bind fun i => .advance (s.setReg i (g (s.reg i))) m 1

theorem execPush_alike (a : Byte) : OutcomesAlike (execPush a s) (execPush a (s.withMem m)) :=
  commit_alike hop <| .bind fun i => .bind fun _ =>
    .advance (s.decSp.memWrite s.pushAddr (s.decSp.reg i)) (m.write s.pushAddr.toNat (s.decSp.reg i)) 1

/-- POP reads one cell more, the one it pops. -/
theorem execPop_alike (a : Byte) (hsp : m.read s.sp.toNat = s.mem.read s.sp.toNat) :
    OutcomesAlike (execPop a s) (execPop a (s.withMem m)) := by
  refine commit_alike hop <| .bind fun i => .bind fun _ => ?_
  have hv : (s.withMem m).memRead (s.withMem m).sp = s.memRead s.sp := hsp
  rw [hv]
  exact .advance _ m 1

theorem execCall_alike (a : Byte) : OutcomesAlike (execCall a s) (execCall a (s.withMem m)) := by
  refine commit_alike hop <| .bind fun i => .bind fun _ => ?_
  by_cases hp : s.pc.toNat + 2 > 255
  · rw [if_pos hp, if_pos (c := (s.withMem m).pc.toNat + 2 > 255) hp]
    exact .faults _
  · rw [if_neg hp, if_neg (c := (s.withMem m).pc.toNat + 2 > 255) hp]
    exact .completes _ (m.write s.pushAddr.toNat (BitVec.ofNat 8 (s.pc.toNat + 2)))

/-- What any instruction does depends on memory only through the byte at pc and, for POP, the cell at SP. -/
theorem exec_alike (i : Instr)
    (hsp : i.name = .pop → m.read s.sp.toNat = s.mem.read s.sp.toNat) :
    OutcomesAlike (exec i s) (exec i (s.withMem m)) := by
  cases i with
  | add => exact alu2_alike hop (fun x y => .ok (aluAdd x y)) _ _
  | sub => exact alu2_alike hop (fun x y => .ok (aluSub x y)) _ _
  | mul => exact alu2_alike hop (fun x y => .ok (aluMul x y)) _ _
  | and => exact alu2_alike hop (fun x y => .ok (aluAnd x y)) _ _
  | or => exact alu2_alike hop (fun x y => .ok (aluOr x y)) _ _
  | xor => exact alu2_alike hop (fun x y => .ok (aluXor x y)) _ _
  | shl => exact alu2_alike hop (fun x y => .ok (aluShl x y)) _ _
  | shr => exact alu2_alike hop (fun x y => .ok (aluShr x y)) _ _
  | div | mod => exact alu2_alike hop _ _ _
  | inc | dec | not => exact alu1_alike hop _ _
  | cmp => exact commit_alike hop <| .bind fun _ => .bind fun _ => .advance s m 2
  | nop => exact commit_alike hop <| .advance s m 0
  | hlt => exact commit_alike hop <| .completes s.halt m
  | ldi r v => exact commit_alike hop <| .bind fun i => .advance (s.setReg i v) m 2
  | prn r => exact commit_alike hop <| .bind fun i => .advance (s.emit (s.reg i)) m 1
  | push r => exact execPush_alike hop r
  | pop r => exact execPop_alike hop r (hsp rfl)
  | call r => exact execCall_alike hop r
  | pra | ret | int | iret | jmp | jeq | jne | jgt | jlt | jle | jge | ld | st => exact commit_alike hop <| .faults _

/-- The fetch depends on the byte at pc and the operand bytes of a byte of the two tables (spec/40_cycle.md R101, R102;
spec/43_unimplemented.md R180). -/
theorem fetch_withMem
    (hbytes : (s.mem.read s.pc.toNat).toNat ∈ tableOpcodes → ∀ k, k ≤ (s.mem.read s.pc.toNat).toNat / 64 →
      m.read (s.pc.toNat + k) = s.mem.read (s.pc.toNat + k)) :
    (s.withMem m).fetch = s.fetch := by
  have hop' : (s.withMem m).memRead (s.withMem m).pc = s.memRead s.pc := hop
  have hrest : (s.withMem m).readBytes (s.pc.toNat + 1) (operandBytesRead (s.memRead s.pc)) =
      s.readBytes (s.pc.toNat + 1) (operandBytesRead (s.memRead s.pc)) := by
    refine readBytes_withMem fun k hk => ?_
    rw [operandBytesRead_eq] at hk
    by_cases ht : (s.memRead s.pc).toNat ∈ tableOpcodes
    · rw [if_pos ht] at hk
      simpa [Nat.add_assoc, Nat.add_comm 1] using hbytes ht (k + 1) hk
    · rw [if_neg ht] at hk
      omega
  have hinstr : (s.withMem m).instrBytes = s.instrBytes := by
    rw [State.instrBytes, hop']
    exact congrArg _ hrest
  rw [State.fetch, State.fetch, hinstr]

end Reads

/-- Settles O49: the two fetches are equal, and the fetched instruction, or the fault of the fetch, does the same over
both memories. -/
theorem stepReadsOnlyItsBytesAndThePoppedCell : Obligations.StepReadsOnlyItsBytesAndThePoppedCell := by
  intro s m hr hop hbytes hpop
  have hfetch := fetch_withMem hop hbytes
  show OutcomesAlike (step s) (step (s.withMem m))
  rw [step_fetching hr, step_fetching (s := s.withMem m) hr, hfetch]
  cases hf : s.fetch with
  | ok i =>
    refine exec_alike hop i fun hn => hpop ?_
    rw [spells_opcode (spells_of_fetch hf), hn]
    rfl
  | error k => exact commit_alike hop (.faults k)

/-! ## Fetching the bytes that spell an instruction -/

/-- Cells that hold the bytes of a list, within addresses 0..255, are read as the list. -/
theorem readBytes_eq {s : State} {a : Nat} {l : List Byte} (ha : a + l.length ≤ 256)
    (h : ∀ (k : Nat) (hk : k < l.length), s.mem.read (a + k) = l[k]) : s.readBytes a l.length = l := by
  induction l generalizing a with
  | nil => rfl
  | cons v vs ih =>
    simp only [List.length_cons] at ha
    have hv : s.mem.read a = v := h 0 (by simp)
    rw [List.length_cons, readBytes_succ (by omega), hv, ih (by omega) fun k hk => ?_]
    rw [Nat.add_assoc, Nat.add_comm 1]
    exact h (k + 1) (Nat.succ_lt_succ hk)

theorem takeOperands_operands (i : Instr) : takeOperands i.name i.operands = .ok (i, []) := by
  cases i <;> rfl

/-- An instruction spelled at pc is the one fetched (spec/40_cycle.md R101, R102). -/
theorem fetch_of_spells {s : State} {i : Instr} (h : Spells s i) : s.fetch = .ok i := by
  have hop : s.memRead s.pc = opcodeMap i.name := spells_opcode h
  obtain ⟨hend, hbytes⟩ := h
  have hrest : s.readBytes (s.pc.toNat + 1) i.operands.length = i.operands := by
    refine readBytes_eq (by simp only [encode, encodeIn, List.length_cons] at hend; omega) fun k hk => ?_
    simpa [encode, encodeIn, Nat.add_assoc, Nat.add_comm 1] using
      hbytes (k + 1) (by simpa [encode, encodeIn] using hk)
  rw [fetch_of_classify (hop ▸ classify_opcodeMap i.name), operandBytesRead_name, hrest, takeOperands_operands]

theorem step_of_spells {s : State} {i : Instr} (hr : s.run = .fetching) (h : Spells s i) : step s = exec i s :=
  step_of_fetch_ok hr (fetch_of_spells h)

/-- The two bytes of a one-operand instruction at pc spell it. -/
theorem spells_two {s : State} {i : Instr} {a : Byte} (hi : i.operands = [a]) (hp : s.pc.toNat ≤ 254)
    (hop : s.mem.read s.pc.toNat = opcodeMap i.name) (ha : s.mem.read (s.pc.toNat + 1) = a) : Spells s i := by
  have henc : encode i = [opcodeMap i.name, a] := by rw [encode, encodeIn, hi]
  unfold Spells
  rw [henc]
  refine ⟨by simp only [List.length_cons, List.length_nil]; omega, fun k hk => ?_⟩
  match k, hk with
  | 0, _ => exact hop
  | 1, _ => exact ha

/-- A slot of R82 takes no operand bytes, and its whole effect is FatalDecodeError. -/
theorem takeOperands_absent {n : OpName} (hn : n ∈ absentNames) (bytes : List Byte) :
    ∃ i, takeOperands n bytes = .ok (i, bytes) ∧ ∀ s, exec i s = s.commit (.error .fatalDecodeError) := by
  cases n with
  | pra | ret | int | iret | jmp | jeq | jne | jgt | jlt | jle | jge | ld | st => exact ⟨_, rfl, fun _ => rfl⟩
  | add | sub | mul | div | mod | inc | dec | cmp | and | not | or | xor | shl | shr => exact absurd hn (by decide)
  | nop | hlt | ldi | prn | push | pop | call => exact absurd hn (by decide)

/-- A byte at pc that no table holds takes the fault of its bit 5 (spec/40_cycle.md R101). -/
theorem step_outside_tables {s : State} (hr : s.run = .fetching)
    (ht : (s.mem.read s.pc.toNat).toNat ∉ tableOpcodes) :
    FaultsWith (step s) s
      (if (s.mem.read s.pc.toNat).getLsbD 5 then .unsupportedALUOperation else .fatalDecodeError) := by
  obtain ⟨n, -, hin, -⟩ | ⟨-, h5, hc⟩ | ⟨-, h5, hc⟩ := classify_cases (s.mem.read s.pc.toNat)
  · exact absurd hin ht
  · rw [if_pos h5]
    exact step_of_fetch_error hr (fetch_of_classify_error hc)
  · rw [if_neg (by rw [h5]; exact Bool.false_ne_true)]
    obtain hc | ⟨n, hn, hc⟩ := hc
    · exact step_of_fetch_error hr (fetch_of_classify_error hc)
    · obtain ⟨i, htake, hexec⟩ := takeOperands_absent hn
        (s.readBytes (s.pc.toNat + 1) (operandBytesRead (opcodeMap n)))
      have hf : s.fetch = .ok i := by rw [fetch_of_classify hc, htake]
      rw [step_of_fetch_ok hr hf, hexec]
      exact commit_error_faultsWith s _

/-! ## PUSH and POP that complete -/

/-- The state after a PUSH of register `r` that completes (spec/42_handlers.md R156, R157). -/
def State.afterPush (s : State) (r : RegIdx) : State :=
  (s.decSp.memWrite s.pushAddr (s.decSp.reg r)).setPc (BitVec.ofNat 8 (s.pc.toNat + 1 + 1))

/-- The state after a POP to register `d` that completes (spec/42_handlers.md R158, R159). -/
def State.afterPop (s : State) (d : RegIdx) : State :=
  ((s.setReg d (s.memRead s.sp)).setSp ((s.setReg d (s.memRead s.sp)).sp + 1)).setPc
    (BitVec.ofNat 8 (s.pc.toNat + 1 + 1))

section Stack

variable {s : State} (r d : RegIdx)

theorem execPush_completes (h0 : 0 < s.sp.toNat) (h1 : s.sp.toNat ≤ 0xF4) (hp : s.pc.toNat ≤ 253) :
    exec (.push (regByte r)) s = .next (s.afterPush r) := by
  have hadv := advance_ok (s := s.decSp.memWrite s.pushAddr (s.decSp.reg r)) (n := 1) (Nat.add_le_add_right hp 2)
  simp only [exec, execPush, checkReg_regByte, checkPush_ok h0 h1, bind, Except.bind]
  exact congrArg s.commit hadv

theorem execPop_completes (h1 : s.sp.toNat < 0xF4) (hp : s.pc.toNat ≤ 253) :
    exec (.pop (regByte d)) s = .next (s.afterPop d) := by
  have hadv := advance_ok (n := 1) (Nat.add_le_add_right hp 2)
    (s := (s.setReg d (s.memRead s.sp)).setSp ((s.setReg d (s.memRead s.sp)).sp + 1))
  simp only [exec, execPop, checkReg_regByte, checkPop_ok h1, bind, Except.bind]
  exact congrArg s.commit hadv

theorem execPop_bad_register {a : Byte} (s : State) (h : 8 ≤ a.toNat) :
    FaultsWith (exec (.pop a) s) s .registerOutOfRange := by
  simp only [exec, execPop, checkReg_bad h, bind, Except.bind]
  exact commit_error_faultsWith s _

@[simp] theorem afterPush_run : (s.afterPush r).run = s.run := rfl
@[simp] theorem afterPop_run : (s.afterPop d).run = s.run := rfl

theorem afterPush_pc (hp : s.pc.toNat ≤ 253) : (s.afterPush r).pc.toNat = s.pc.toNat + 2 :=
  toNat_next (s := s) (n := 1) (by omega)

theorem afterPop_pc (hp : s.pc.toNat ≤ 253) : (s.afterPop d).pc.toNat = s.pc.toNat + 2 :=
  toNat_next (s := s) (n := 1) (by omega)

@[simp] theorem afterPush_sp : (s.afterPush r).sp = s.sp - 1 := pushAddr_eq s

theorem afterPush_sp_toNat (h0 : 0 < s.sp.toNat) : (s.afterPush r).sp.toNat = s.sp.toNat - 1 := pushAddr_toNat h0

/-- The cell at SP - 1 holds the pushed byte: the register's value, or for R7 the new SP. -/
theorem afterPush_read_same (hw : s.mem.wf = true) (h0 : 0 < s.sp.toNat) :
    (s.afterPush r).mem.read (s.sp.toNat - 1) = if r = 7 then s.sp - 1 else s.reg r := by
  have haddr : s.sp.toNat - 1 = s.pushAddr.toNat := (pushAddr_toNat h0).symm
  rw [← pushAddr_eq, ← decSp_reg]
  exact (State.memWrite_read (s := s.decSp) _ hw).trans (if_pos haddr)

theorem afterPush_read_ne {a : Nat} (h0 : 0 < s.sp.toNat) (ha : a ≠ s.sp.toNat - 1) :
    (s.afterPush r).mem.read a = s.mem.read a :=
  State.memWrite_read_ne (s := s.decSp) (pushAddr_toNat h0 ▸ ha)

theorem afterPop_reg_same (h7 : d ≠ 7) : (s.afterPop d).reg d = s.memRead s.sp := by
  simp [State.afterPop, State.setSp_reg, Ne.symm h7]

theorem afterPop_sp : (s.afterPop d).sp = (if d = 7 then s.memRead s.sp else s.sp) + 1 := by
  simp only [State.afterPop, State.setPc_sp, State.setSp_sp]
  rw [State.sp_eq_reg, State.setReg_reg, ← State.sp_eq_reg]

end Stack

/-! ## A PUSH over the POP that follows it -/

/-- The step after a push to the POP's operand byte: the popped cell is that byte, so the byte names the register it is
loaded to. -/
theorem step_pop_of_own_operand {t : State} {d : RegIdx} (hr : t.run = .fetching)
    (hs : Spells t (.pop (regByte d))) (hsp : t.sp.toNat < 0xF4) (hp : t.pc.toNat ≤ 253)
    (hown : t.memRead t.sp = regByte d) :
    ∃ u : State, step t = .next u ∧ u.pc.toNat = t.pc.toNat + 2 ∧ u.run = .fetching ∧
      (d ≠ 7 → u.reg d = regByte d ∧ u.sp = t.sp + 1) ∧ (d = 7 → u.sp = 8) := by
  refine ⟨t.afterPop d, ?_, afterPop_pc d hp, (afterPop_run d).trans hr, fun h7 => ⟨?_, ?_⟩, fun h7 => ?_⟩
  · rw [step_of_spells hr hs, execPop_completes d hsp hp]
  · rw [afterPop_reg_same d h7, hown]
  · rw [afterPop_sp, if_neg h7]
  · rw [afterPop_sp, if_pos h7, hown, h7]
    rfl

/-- Settles O51: the PUSH completes; the next step reads the stored byte as its opcode byte, or as the operand of the
POP whose opcode byte still stands before it. -/
theorem pushOverItsOwnPopIsSeenByTheNextStep : Obligations.PushOverItsOwnPopIsSeenByTheNextStep := by
  intro s r v hinv hr h0 h1 hp hpush hr1 hpop _ hv
  have hstep : step s = .next (s.afterPush r) := by
    have hs : Spells s (.push (regByte r)) := spells_two rfl (by omega) hpush hr1
    rw [step_of_spells hr hs, execPush_completes r h0 h1 (by omega)]
  have hrt : (s.afterPush r).run = .fetching := (afterPush_run r).trans hr
  have hpc : (s.afterPush r).pc.toNat = s.pc.toNat + 2 := afterPush_pc r (by omega)
  have hsp : (s.afterPush r).sp.toNat = s.sp.toNat - 1 := afterPush_sp_toNat r h0
  have hstored : (s.afterPush r).mem.read (s.sp.toNat - 1) = v := hv ▸ afterPush_read_same r hinv.memWf h0
  refine ⟨s.afterPush r, hstep, hpc, hrt, fun ha => ?_, fun ha => ?_⟩
  · have hop : (s.afterPush r).mem.read (s.afterPush r).pc.toNat = v := by rw [hpc, ← ha, hstored]
    exact ⟨hop, fun ht => hop ▸ step_outside_tables hrt (hop.symm ▸ ht)⟩
  · have hs : Spells (s.afterPush r) (.pop v) := by
      refine spells_two rfl (by omega) ?_ ?_
      · rw [hpc, afterPush_read_ne r h0 (by omega), hpop]
        rfl
      · rw [hpc, Nat.add_assoc, ← ha, hstored]
    refine ⟨fun h8 => ?_, fun d hd => ?_⟩
    · rw [step_of_spells hrt hs]
      exact execPop_bad_register _ h8
    · subst hd
      have hown : (s.afterPush r).memRead (s.afterPush r).sp = regByte d := by rw [State.memRead, hsp, hstored]
      obtain ⟨u, hu, hupc, hurun, hother, hseven⟩ :=
        step_pop_of_own_operand hrt hs (by omega) (by omega) hown
      refine ⟨u, hu, by omega, hurun, fun h7 => ?_, hseven⟩
      obtain ⟨hreg, husp⟩ := hother h7
      exact ⟨hreg, by rw [husp, afterPush_sp, BitVec.sub_add_cancel]⟩

end Sys2Proof.Machine
end

section
/-! Proofs of the statements about the encoding (spec/30_encoding.md): the decoder and the encoder are inverse under every
legal opcode map, the adopted map is legal, and a register operand above 7 is the one cause of RegisterOutOfRange. -/

namespace Sys2Proof

/-! ## The decoder and the encoder -/

/-- The step of the decoder at a byte that classifies (spec/30_encoding.md R77). -/
theorem decodeIn_cons {m : OpcodeMap} {op : Byte} {n : OpName} (h : classifyIn m op = .ok n) (bytes : List Byte) :
    decodeIn m (op :: bytes) = takeOperands n bytes := by
  rw [decodeIn, h]

/-- A decoded instruction comes from a byte that classifies and the operands taken after it. -/
theorem decodeIn_ok {m : OpcodeMap} {bytes rest : List Byte} {i : Instr} (h : decodeIn m bytes = .ok (i, rest)) :
    ∃ op tail n, bytes = op :: tail ∧ classifyIn m op = .ok n ∧ takeOperands n tail = .ok (i, rest) := by
  cases bytes with
  | nil => cases h
  | cons op tail =>
    cases hc : classifyIn m op with
    | ok n => exact ⟨op, tail, n, rfl, hc, decodeIn_cons hc tail ▸ h⟩
    | error e => rw [decodeIn, hc] at h; cases h

/-- The operand bytes of an instruction are taken back, whatever follows them (spec/30_encoding.md R72). -/
theorem takeOperands_operands_append (i : Instr) (rest : List Byte) :
    takeOperands i.name (i.operands ++ rest) = .ok (i, rest) := by
  cases i <;> rfl

/-- A slot outside the ALU map is in one of the lists that are searched while bit 5 is clear. -/
theorem mem_dispatch_or_absent {n : OpName} (h : n ∉ aluNames) : n ∈ dispatchNames ++ absentNames := by
  revert h
  cases n <;> decide

namespace OpcodeMap.Legal

variable {m : OpcodeMap}

/-- No two slots share a byte, so a search for a slot's byte finds that slot. -/
theorem find?_opcode (hm : m.Legal) {names : List OpName} {n : OpName} (hn : n ∈ names) :
    names.find? (fun k => m k == m n) = some n := by
  have hsome : (names.find? (fun k => m k == m n)).isSome := List.find?_isSome.mpr ⟨n, hn, beq_self_eq_true (m n)⟩
  obtain ⟨k, hk⟩ := Option.isSome_iff_exists.mp hsome
  have hkn : m k = m n := eq_of_beq (List.find?_some hk :)
  rwa [hm.distinct k n hkn] at hk

/-- Bit 5 chooses the list that holds the slot, and the search of that list finds it. -/
theorem classifyIn_opcode (hm : m.Legal) (n : OpName) : classifyIn m (m n) = .ok n := by
  by_cases ha : n ∈ aluNames
  · rw [classifyIn, if_pos ((hm.aluField n).mpr ha), hm.find?_opcode ha]
  · rw [classifyIn, if_neg (mt (hm.aluField n).mp ha), hm.find?_opcode (mem_dispatch_or_absent ha)]

end OpcodeMap.Legal

/-- Settles O6: the opcode byte classifies as the instruction's slot, and the slot takes exactly the operand bytes. -/
theorem decodeOfEncodeIsIdentity : Obligations.DecodeOfEncodeIsIdentity := by
  intro m hm i rest
  calc decodeIn m (encodeIn m i ++ rest)
    _ = takeOperands i.name (i.operands ++ rest) := decodeIn_cons (hm.classifyIn_opcode i.name) _
    _ = .ok (i, rest) := takeOperands_operands_append i rest

/-- Settles O7: the opcode byte is the map's byte for the slot, and the bytes taken after it are the operands. -/
theorem decodedBytesAreTheEncoding : Obligations.DecodedBytesAreTheEncoding := by
  intro m bytes rest i h
  obtain ⟨op, tail, n, rfl, hclass, htake⟩ := decodeIn_ok h
  obtain ⟨rfl, rfl⟩ := takeOperands_ok htake
  rw [encodeIn, opcode_of_classifyIn hclass, List.cons_append]

/-! ## The adopted opcode map -/

/-- The adopted map is legal (spec/30_encoding.md R81): its bytes are distinct because each classifies as its own slot. -/
theorem opcodeMap_legal : OpcodeMap.Legal opcodeMap where
  distinct n k h := Except.ok.inj ((classify_opcodeMap n).symm.trans (h ▸ classify_opcodeMap k))
  operandField n := by cases n <;> decide
  aluField n := by cases n <;> decide

/-- Settles O8: the map is legal, and bit 4 is read off the 34 bytes of the map. -/
theorem adoptedOpcodesFollowTheStructuralRules : Obligations.AdoptedOpcodesFollowTheStructuralRules := by
  refine ⟨opcodeMap_legal, rfl, rfl, fun n => ?_⟩
  cases n <;> decide

/-- The round trip under the adopted map. -/
theorem decode_encode_append (i : Instr) (rest : List Byte) : decode (encode i ++ rest) = .ok (i, rest) :=
  decodeOfEncodeIsIdentity opcodeMap opcodeMap_legal i rest

/-- A table word whose bytes begin with the encoding of `i` decodes to `i`. -/
theorem decodeTableWord_eq_some {nbits w : Nat} {i : Instr} {rest : List Byte}
    (h : tableBytes nbits w = encode i ++ rest) : decodeTableWord nbits w = some i := by
  rw [decodeTableWord, h, decode_encode_append]

/-- Settles O10: each word is the encoding of its instruction, the last one followed by bytes that PRA does not take. -/
theorem sampleWordsDecode : Obligations.SampleWordsDecode :=
  ⟨decode_encode_append (.add 0 1) [], decode_encode_append (.inc 3) [], decode_encode_append (.shr 0 1) [],
    decode_encode_append (.ldi 0 8) [], decode_encode_append (.call 1) [], decode_encode_append .nop [],
    decode_encode_append .ret [], decodeTableWord_eq_some (rest := []) (by decide),
    decodeTableWord_eq_some (rest := [2, 0]) (by decide)⟩

/-! ## The outcomes of the 256 bytes -/

/-- The 256 byte values, in order. -/
def allBytes : List Byte := (List.range 256).map (BitVec.ofNat 8)

theorem allBytes_nodup : allBytes.Nodup := by
  refine List.Nodup.map_on (fun x hx y hy h => ?_) List.nodup_range
  rw [List.mem_range] at hx hy
  simpa [Nat.mod_eq_of_lt hx, Nat.mod_eq_of_lt hy] using congrArg BitVec.toNat h

theorem mem_allBytes (op : Byte) : op ∈ allBytes :=
  List.mem_map.mpr ⟨op.toNat, List.mem_range.mpr op.isLt, by simp⟩

/-- The byte classifies as one of the named slots. -/
def classifiesIn (names : List OpName) (op : Byte) : Bool :=
  match classify op with
  | .ok n => names.contains n
  | .error _ => false

/-- The byte is rejected with the error. -/
def rejectedWith (e : DecodeError) (op : Byte) : Bool :=
  match classify op with
  | .ok _ => false
  | .error d => d == e

theorem classifiesIn_iff {names : List OpName} {op : Byte} :
    classifiesIn names op = true ↔ op ∈ names.map opcodeMap := by
  rw [List.mem_map, classifiesIn]
  constructor
  · intro h
    split at h
    · next n hc => exact ⟨n, List.contains_iff_mem.mp h, (opcode_of_classify hc).symm⟩
    · cases h
  · rintro ⟨n, hn, rfl⟩
    rw [classify_opcodeMap]
    exact List.contains_iff_mem.mpr hn

/-- As many bytes classify as one of some slots as there are slots, because no two of them share a byte. -/
theorem countP_classifiesIn {names : List OpName} (h : names.Nodup) :
    allBytes.countP (classifiesIn names) = names.length := by
  have hnodup : (names.map opcodeMap).Nodup := h.map fun n k => opcodeMap_legal.distinct n k
  have hperm : (allBytes.filter (classifiesIn names)).Perm (names.map opcodeMap) := by
    refine (List.perm_ext_iff_of_nodup (allBytes_nodup.filter _) hnodup).mpr fun op => ?_
    rw [List.mem_filter, classifiesIn_iff, and_iff_right (mem_allBytes op)]
  rw [List.countP_eq_length_filter, hperm.length_eq, List.length_map]

/-- A byte that is rejected is rejected by its bit 5 (spec/30_encoding.md R77). -/
theorem error_of_classify {op : Byte} {e : DecodeError} (h : classify op = .error e) :
    e = if aluBit op then .unsupportedALUOperation else .fatalDecodeError := by
  unfold classify classifyIn at h
  split at h
  · next ha =>
    rw [if_pos ha]
    split at h <;> cases h
    rfl
  · next ha =>
    rw [if_neg ha]
    split at h <;> cases h
    rfl

/-- A byte with bit 5 set is an ALU operation or unsupported, and one with bit 5 clear is a slot of the other lists or
unknown; no byte is both. -/
theorem outcomes_by_aluBit (op : Byte) :
    (aluBit op).toNat =
      (classifiesIn aluNames op).toNat + (rejectedWith .unsupportedALUOperation op && aluBit op).toNat ∧
    (!aluBit op).toNat =
      (classifiesIn (dispatchNames ++ absentNames) op).toNat + (rejectedWith .fatalDecodeError op && !aluBit op).toNat := by
  cases hc : classify op with
  | ok n =>
    obtain rfl := opcode_of_classify hc
    cases n <;> exact ⟨rfl, rfl⟩
  | error e =>
    obtain rfl := error_of_classify hc
    cases ha : aluBit op <;> simp [classifiesIn, rejectedWith, hc, ha]

/-- A predicate that splits into two disjoint ones counts what both count. -/
theorem countP_eq_add {α : Type} {p q r : α → Bool} (h : ∀ x, (p x).toNat = (q x).toNat + (r x).toNat) (l : List α) :
    l.countP p = l.countP q + l.countP r := by
  induction l with
  | nil => rfl
  | cons x xs ih =>
    have hx := h x
    simp only [Bool.toNat, Bool.cond_eq_ite] at hx
    rw [List.countP_cons, List.countP_cons, List.countP_cons, ih, hx]
    omega

/-- Bit 5 is set in one half of the bytes and clear in the other. -/
theorem countP_aluBit : allBytes.countP aluBit = 128 ∧ allBytes.countP (fun op => !aluBit op) = 128 := by
  decide +kernel

/-- Settles O9: each named slot has one byte, and the rest of the 128 bytes with bit 5 set, and of the 128 with bit 5
clear, are rejected. -/
theorem everyByteHasOneOfFourOutcomes : Obligations.EveryByteHasOneOfFourOutcomes := by
  obtain ⟨hset, hclear⟩ := countP_aluBit
  have halu : allBytes.countP (classifiesIn aluNames) = 14 := countP_classifiesIn (by decide)
  have hrest : allBytes.countP (classifiesIn (dispatchNames ++ absentNames)) = 20 := countP_classifiesIn (by decide)
  rw [countP_eq_add (fun op => (outcomes_by_aluBit op).left), halu] at hset
  rw [countP_eq_add (fun op => (outcomes_by_aluBit op).right), hrest] at hclear
  have hunsupported : allBytes.countP (fun op => rejectedWith .unsupportedALUOperation op && aluBit op) = 114 := by
    omega
  have hfatal : allBytes.countP (fun op => rejectedWith .fatalDecodeError op && !aluBit op) = 108 := by
    omega
  exact ⟨halu, countP_classifiesIn (by decide), countP_classifiesIn (by decide), hunsupported, hfatal⟩

namespace Machine

/-! ## The register check -/

@[simp] theorem namesRegister_regByte (i : RegIdx) : namesRegister (regByte i) = true := by simp [namesRegister]

theorem namesRegister_bad {a : Byte} (h : 8 ≤ a.toNat) : namesRegister a = false := by simpa [namesRegister] using h

/-- The staged transaction of an instruction takes RegisterOutOfRange exactly when `wf` is false, and one that completes
leaves a core that is not FAULTED. -/
def ChecksRegisters (wf : Bool) : Except FaultKind State → Prop
  | .ok t => wf = true ∧ t.run ≠ .faulted
  | .error k => k = .registerOutOfRange ↔ wf = false

namespace ChecksRegisters

variable {α : Type} {wf : Bool} {s : State}

/-- A committed transaction is seen to take RegisterOutOfRange exactly when its instruction is ill-formed. -/
theorem commit_iff {r : Except FaultKind State} (s : State) (h : ChecksRegisters wf r) :
    FaultsWith (s.commit r) s .registerOutOfRange ↔ wf = false := by
  cases r with
  | ok t =>
    obtain ⟨hwf, hrun⟩ := h
    refine iff_of_false (fun hf => hrun ?_) (by simp [hwf])
    cases hf
    rfl
  | error k =>
    refine Iff.trans ⟨fun hf => ?_, fun hk => by rw [hk]; exact commit_error_faultsWith s _⟩ h
    cases hf
    rfl

theorem error {k : FaultKind} (hk : k ≠ .registerOutOfRange) : ChecksRegisters true (.error k) :=
  iff_of_false hk Bool.noConfusion

theorem ok {t : State} (ht : t.run ≠ .faulted) : ChecksRegisters true (.ok t) := ⟨rfl, ht⟩

theorem advance {t : State} (n : Nat) (ht : t.run ≠ .faulted) : ChecksRegisters true (t.advance n) := by
  unfold State.advance
  split
  · exact error (by decide)
  · exact ok ht

/-- A check or a result that comes after the register checks never takes RegisterOutOfRange. -/
theorem bind {r : Except FaultKind α} {g : α → Except FaultKind State}
    (hr : ∀ {k}, r = .error k → k ≠ .registerOutOfRange) (hg : ∀ x, ChecksRegisters true (g x)) :
    ChecksRegisters true (r >>= g) := by
  cases r with
  | ok x => exact hg x
  | error k => exact error (hr rfl)

/-- The check of a register operand adds the condition that the operand names a register (spec/40_cycle.md R103). -/
theorem checkReg_bind {g : RegIdx → Except FaultKind State} (a : Byte) (hg : ∀ i, ChecksRegisters wf (g i)) :
    ChecksRegisters (namesRegister a && wf) (checkReg a >>= g) := by
  obtain ⟨i, rfl, hi⟩ | ⟨ha, hi⟩ := checkReg_cases a
  · rw [hi, namesRegister_regByte, Bool.true_and]
    exact hg i
  · rw [hi, namesRegister_bad ha, Bool.false_and]
    exact iff_of_true rfl rfl

/-- The check of an instruction's last register operand. -/
theorem lastCheck {g : RegIdx → Except FaultKind State} (a : Byte) (hg : ∀ i, ChecksRegisters true (g i)) :
    ChecksRegisters (namesRegister a) (checkReg a >>= g) :=
  Bool.and_true (namesRegister a) ▸ checkReg_bind a hg

end ChecksRegisters

open ChecksRegisters

theorem aluDiv_error {x y : Byte} {k : FaultKind} (h : aluDiv x y = .error k) : k ≠ .registerOutOfRange := by
  unfold aluDiv at h
  split at h <;> cases h
  decide

theorem aluDivIn_error {order : Config.DivOperandOrder} {x y : Byte} {k : FaultKind}
    (h : aluDivIn order x y = .error k) : k ≠ .registerOutOfRange := by
  cases order with
  | aByB | sourceBByA => exact aluDiv_error h

theorem aluMod_error {x y : Byte} {k : FaultKind} (h : aluMod x y = .error k) : k ≠ .registerOutOfRange := by
  unfold aluMod at h
  split at h <;> cases h
  decide

theorem checkPush_error {s : State} {k : FaultKind} (h : checkPush s = .error k) : k ≠ .registerOutOfRange := by
  obtain ⟨-, hc⟩ | ⟨-, hc⟩ | ⟨-, -, hc⟩ := checkPush_cases s <;> rw [hc] at h <;> cases h <;> decide

theorem checkPop_error {s : State} {k : FaultKind} (h : checkPop s = .error k) : k ≠ .registerOutOfRange := by
  unfold checkPop at h
  split at h <;> cases h
  decide

section Running

variable {s : State} (hs : s.run ≠ .faulted)
include hs

theorem alu2_faultsWith_iff (f : Byte → Byte → Except FaultKind Byte)
    (hf : ∀ {x y k}, f x y = .error k → k ≠ .registerOutOfRange) (a b : Byte) :
    FaultsWith (alu2 f a b s) s .registerOutOfRange ↔ (namesRegister a && namesRegister b) = false :=
  commit_iff s <| checkReg_bind a fun _ => lastCheck b fun _ => .bind hf fun _ => .advance 2 hs

/-- A two-register instruction whose result always exists. -/
theorem alu2_total_faultsWith_iff (f : Byte → Byte → Byte) (a b : Byte) :
    FaultsWith (alu2 (fun x y => .ok (f x y)) a b s) s .registerOutOfRange ↔
      (namesRegister a && namesRegister b) = false :=
  alu2_faultsWith_iff hs (fun x y => .ok (f x y)) (fun h => nomatch h) a b

theorem alu1_faultsWith_iff (g : Byte → Byte) (a : Byte) :
    FaultsWith (alu1 g a s) s .registerOutOfRange ↔ namesRegister a = false :=
  commit_iff s <| lastCheck a fun _ => .advance 1 hs

theorem execCall_faultsWith_iff (r : Byte) :
    FaultsWith (execCall r s) s .registerOutOfRange ↔ namesRegister r = false := by
  refine commit_iff s <| lastCheck r fun _ => .bind checkPush_error fun _ => ?_
  split
  · exact .error (by decide)
  · exact ok hs

/-- Of every instruction in a core that is not FAULTED: the register checks are the one source of RegisterOutOfRange
(spec/40_cycle.md R103). -/
theorem exec_faultsWith_registerOutOfRange_iff (i : Instr) :
    FaultsWith (exec i s) s .registerOutOfRange ↔ i.wellFormed = false := by
  cases i with
  | add => exact alu2_total_faultsWith_iff hs aluAdd _ _
  | sub => exact alu2_total_faultsWith_iff hs aluSub _ _
  | mul => exact alu2_total_faultsWith_iff hs aluMul _ _
  | and => exact alu2_total_faultsWith_iff hs aluAnd _ _
  | or => exact alu2_total_faultsWith_iff hs aluOr _ _
  | xor => exact alu2_total_faultsWith_iff hs aluXor _ _
  | shl => exact alu2_total_faultsWith_iff hs aluShl _ _
  | shr => exact alu2_total_faultsWith_iff hs aluShr _ _
  | div => exact alu2_faultsWith_iff hs (aluDivIn Config.divOperandOrder) aluDivIn_error _ _
  | mod => exact alu2_faultsWith_iff hs aluMod aluMod_error _ _
  | inc | dec | not => exact alu1_faultsWith_iff hs _ _
  | cmp a b => exact commit_iff s <| checkReg_bind a fun _ => lastCheck b fun _ => .advance 2 hs
  | nop => exact commit_iff s <| .advance 0 hs
  | hlt => exact commit_iff s <| .ok RunState.noConfusion
  | ldi r v => exact commit_iff s <| lastCheck r fun _ => .advance 2 hs
  | prn r => exact commit_iff s <| lastCheck r fun _ => .advance 1 hs
  | push r => exact commit_iff s <| lastCheck r fun _ => .bind checkPush_error fun _ => .advance 1 hs
  | pop r => exact commit_iff s <| lastCheck r fun _ => .bind checkPop_error fun _ => .advance 1 hs
  | call r => exact execCall_faultsWith_iff hs r
  | pra | ret | int | iret | jmp | jeq | jne | jgt | jlt | jle | jge | ld | st =>
    exact commit_iff s <| .error (by decide)

end Running

/-- Settles O16: a FETCHING core is not FAULTED, and the register checks alone take RegisterOutOfRange. -/
theorem illFormedInstructionsAreRegisterOutOfRange : Obligations.IllFormedInstructionsAreRegisterOutOfRange :=
  fun i s hr => exec_faultsWith_registerOutOfRange_iff (by rw [hr]; decide) i

end Machine
end Sys2Proof
end

section
/-! Proofs of the statements about the cycle (spec/40_cycle.md): which instruction a step runs, the faults of the fetch, and
what every step leaves in the run state, the fault record and the pc. -/

namespace Sys2Proof.Machine

/-! ## Where a step exists, and what it runs -/

/-- Settles O11: the fetch of the bytes of an instruction is that instruction. -/
theorem stepRunsTheInstructionAtPc : Obligations.StepRunsTheInstructionAtPc :=
  fun _ _ hr hs => step_of_spells hr hs

/-- Settles O13: a running step answers the effect or the fault of the fetch; the other run states stop by name. -/
theorem stepExistsExactlyWhileRunning : Obligations.StepExistsExactlyWhileRunning := by
  refine fun s => ⟨step_next, fun h => ?_, fun h => ?_, fun h => ?_⟩
  all_goals simp only [step, h]

/-! ## A word placed at pc -/

section Placing

variable {s : State}

/-- Storing bytes changes nothing but memory. -/
theorem storeBytes_eq_withMem (s : State) (a : Nat) (bytes : List Byte) : ∃ m, s.storeBytes a bytes = s.withMem m := by
  induction bytes generalizing s a with
  | nil => exact ⟨s.mem, rfl⟩
  | cons v vs ih =>
    simp only [State.storeBytes]
    split
    · obtain ⟨m, hm⟩ := ih { s with mem := s.mem.write a v } (a + 1)
      exact ⟨m, hm⟩
    · exact ⟨s.mem, rfl⟩

@[simp] theorem storeBytes_pc (s : State) (a : Nat) (bytes : List Byte) : (s.storeBytes a bytes).pc = s.pc := by
  obtain ⟨m, hm⟩ := storeBytes_eq_withMem s a bytes
  rw [hm, State.withMem]

@[simp] theorem storeBytes_run (s : State) (a : Nat) (bytes : List Byte) : (s.storeBytes a bytes).run = s.run := by
  obtain ⟨m, hm⟩ := storeBytes_eq_withMem s a bytes
  rw [hm, State.withMem]

/-- Storing from an address on leaves the cells below it as they were. -/
theorem storeBytes_read_below {a b : Nat} (bytes : List Byte) (hb : b < a) :
    (s.storeBytes a bytes).mem.read b = s.mem.read b := by
  induction bytes generalizing s a with
  | nil => rfl
  | cons v vs ih =>
    simp only [State.storeBytes]
    split
    · rw [ih (by omega)]
      exact Memory.read_write_ne v (by omega)
    · rfl

/-- In canonical memory the stored bytes are read back, where they fit within addresses 0..255. -/
theorem storeBytes_read {a k : Nat} {bytes : List Byte} (hw : s.mem.wf = true) (ha : a + bytes.length ≤ 256)
    (hk : k < bytes.length) : (s.storeBytes a bytes).mem.read (a + k) = bytes[k] := by
  induction bytes generalizing s a k with
  | nil => cases hk
  | cons v vs ih =>
    simp only [List.length_cons] at ha hk
    have hlt : a < Config.memSize := show a < 256 by omega
    rw [State.storeBytes, if_pos hlt]
    cases k with
    | zero =>
      calc _ = (s.mem.write a v).read a := storeBytes_read_below vs (Nat.lt_succ_self a)
        _ = v := (Memory.read_write a hw).trans (if_pos rfl)
    | succ k =>
      have hrest := ih (s := { s with mem := s.mem.write a v }) (a := a + 1) (Memory.wf_write hw hlt) (by omega)
        (Nat.lt_of_succ_lt_succ hk)
      simpa [Nat.add_assoc, Nat.add_comm 1] using hrest

/-- Bytes placed at pc that begin with the encoding of an instruction spell it. -/
theorem spells_storeBytes {i : Instr} {rest : List Byte} (hw : s.mem.wf = true)
    (hp : s.pc.toNat + (encode i ++ rest).length ≤ 256) :
    Spells (s.storeBytes s.pc.toNat (encode i ++ rest)) i := by
  refine ⟨?_, fun k hk => ?_⟩
  · rw [List.length_append] at hp
    rw [storeBytes_pc]
    omega
  · rw [storeBytes_pc, storeBytes_read hw hp (List.length_append ▸ Nat.lt_add_right _ hk), List.getElem_append_left hk]

end Placing

/-- A table word that decodes begins with the encoding of its instruction. -/
theorem tableBytes_of_decodeTableWord {nbits w : Nat} {i : Instr} (h : decodeTableWord nbits w = some i) :
    ∃ rest, tableBytes nbits w = encode i ++ rest := by
  unfold decodeTableWord at h
  split at h
  · next j rest hd => cases h; exact ⟨rest, decodedBytesAreTheEncoding _ _ _ _ hd⟩
  · cases h

/-- Settles O12: the three bytes of the word fit from pc on, and they begin with the encoding of the instruction. -/
theorem placedTableWordIsTheNextInstruction : Obligations.PlacedTableWordIsTheNextInstruction := by
  intro s nbits w i hr hw hp h
  obtain ⟨rest, hb⟩ := tableBytes_of_decodeTableWord h
  have hlen : (encode i ++ rest).length = 3 := hb ▸ rfl
  have hplaced : s.withFetchWord nbits w = s.storeBytes s.pc.toNat (encode i ++ rest) := by rw [State.withFetchWord, hb]
  rw [hplaced]
  exact step_of_spells ((storeBytes_run ..).trans hr) (spells_storeBytes hw (by omega))

/-! ## The faults of the fetch -/

/-- Settles O14: classification rejects the byte by its bit 5, or reads it as a slot of R82, whose execution is the same
fault. -/
theorem opcodeOutsideTheTablesFaults : Obligations.OpcodeOutsideTheTablesFaults :=
  fun _ hr ht => step_outside_tables hr ht

/-- A slot of the two tables whose operand bytes would run past address 255 is not fetched (spec/40_cycle.md R102). -/
theorem fetch_past_end {s : State} {n : OpName} (hc : classify (s.memRead s.pc) = .ok n) (hn : n ∉ absentNames)
    (hp : 255 < s.pc.toNat + formatOperands n) : s.fetch = .error .memoryOutOfRange := by
  have hread : operandBytesRead (opcodeMap n) = formatOperands n := by rw [operandBytesRead_opcodeMap, if_neg hn]
  have hpc : s.pc.toNat < 256 := s.pc.isLt
  have hshort : (s.readBytes (s.pc.toNat + 1) (formatOperands n)).length < formatOperands n :=
    (readBytes_short (by omega)).resolve_right (by omega)
  rw [fetch_of_classify hc, hread, takeOperands_short hn hshort]
  rfl

/-- Settles O15: field AA of a byte of the two tables is its slot's operand count, and the fetch finds fewer bytes. -/
theorem operandBytesPastTheEndFault : Obligations.OperandBytesPastTheEndFault := by
  intro s hr ht hp
  obtain ⟨n, hc, -, hn, hop⟩ | ⟨hnt, -⟩ | ⟨hnt, -⟩ := classify_cases (s.mem.read s.pc.toNat)
  · rw [hop, opcodeMap_div_64] at hp
    exact step_of_fetch_error hr (fetch_past_end hc hn hp)
  · exact absurd ht hnt
  · exact absurd ht hnt

/-! ## What every step leaves behind -/

/-- A step takes a fault, or runs HLT, or leaves the core running; the last two have the effect of the instruction spelled
at pc. -/
theorem step_outcome {s t : State} (h : step s = .next t) :
    (∃ k, t = s.raise k) ∨ (Spells s .hlt ∧ t = s.halt) ∨
      ∃ i, Spells s i ∧ Effect s i t ∧ t.run = .fetching := by
  obtain ⟨hr, ⟨k, -, rfl⟩ | ⟨i, hf, he⟩⟩ := step_cases h
  · exact .inl ⟨k, rfl⟩
  · have hs := spells_of_fetch hf
    obtain hk | ⟨rfl, rfl⟩ | ⟨hrun, -, -⟩ := effect_run he
    · exact .inl hk
    · exact .inr (.inl ⟨hs, rfl⟩)
    · exact .inr (.inr ⟨i, hs, he, hrun.trans hr⟩)

/-- Settles O41: only a fault leaves FAULTED, and a fault is the state before the step with `run` and the record written. -/
theorem faultingStepCommitsNothing : Obligations.FaultingStepCommitsNothing := by
  intro s t h ht
  obtain ⟨k, rfl⟩ | ⟨-, rfl⟩ | ⟨i, -, -, hrun⟩ := step_outcome h
  · exact ⟨k, h⟩
  · cases ht
  · rw [hrun] at ht; cases ht

/-- The byte of an instruction without operands spells it, at every pc. -/
theorem spells_one {s : State} {i : Instr} (hi : i.operands = []) (hop : s.mem.read s.pc.toNat = opcodeMap i.name) :
    Spells s i := by
  have henc : encode i = [opcodeMap i.name] := by rw [encode, encodeIn, hi]
  unfold Spells
  rw [henc]
  refine ⟨s.pc.isLt, fun k hk => ?_⟩
  match k, hk with
  | 0, _ => exact hop

/-- HLT is spelled by its opcode byte, and its step halts (spec/42_handlers.md R152). -/
theorem step_hlt {s : State} (hr : s.run = .fetching) (hop : (s.mem.read s.pc.toNat).toNat = 0x01) :
    step s = .next s.halt :=
  step_of_spells hr (spells_one (i := .hlt) rfl (BitVec.eq_of_toNat_eq hop))

/-- Settles O48: a step that halts ran HLT, whose opcode byte is 0x01, and a step at that byte halts. -/
theorem runEndsOnlyByHltOrFault : Obligations.RunEndsOnlyByHltOrFault := by
  intro s t h
  refine ⟨⟨fun ht => ?_, fun hop => ?_⟩, ?_⟩
  · obtain ⟨k, rfl⟩ | ⟨hs, -⟩ | ⟨i, -, -, hrun⟩ := step_outcome h
    · cases ht
    · rw [spells_opcode hs]; rfl
    · rw [hrun] at ht; cases ht
  · obtain ⟨hr, -⟩ := step_cases h
    rw [step_hlt hr hop] at h
    cases h
    rfl
  · obtain ⟨k, rfl⟩ | ⟨-, rfl⟩ | ⟨i, -, -, hrun⟩ := step_outcome h
    · exact .inr (.inr rfl)
    · exact .inr (.inl rfl)
    · exact .inl hrun

/-- An instruction with a destination register has all the operand bytes of its format. -/
theorem operands_length_of_destOf {i : Instr} {d : Byte} (h : destOf i = some d) :
    i.operands.length = formatOperands i.name := by
  cases i with
  | add | sub | mul | div | mod | inc | dec | cmp | and | not | or | xor | shl | shr => rfl
  | nop | hlt | ldi | prn | push | pop | call => rfl
  | pra | ret | int | iret | jmp | jeq | jne | jgt | jlt | jle | jge | ld | st => cases h

/-- An effect that is no fault moves pc past the instruction, but for HLT and CALL (spec/40_cycle.md R105). -/
theorem effect_pc {s t : State} {i : Instr} (h : Effect s i t) :
    (∃ k, t = s.raise k) ∨ i.name ∈ [.call, .hlt] ∨ t.pc.toNat = s.pc.toNat + formatOperands i.name + 1 := by
  cases h with
  | faults k => exact .inl ⟨k, rfl⟩
  | halts | calls => exact .inr (.inl (by simp [Instr.name]))
  | advances n hi hn hp =>
    obtain rfl : n = formatOperands i.name := by
      obtain rfl | ⟨a, b, rfl⟩ := hi
      · exact hn.symm
      · exact hn.symm
    exact .inr (.inr (toNat_next hp))
  | writes d v n hi hn hp =>
    obtain rfl : n = formatOperands i.name := hn.symm.trans (operands_length_of_destOf hi)
    exact .inr (.inr (toNat_next hp))
  | prints d hp | pushes d _ _ hp | pops d _ hp => exact .inr (.inr (toNat_next hp))

/-- Settles O44: the effect moves pc past the operand bytes of the slot at pc, which field AA of its byte counts. -/
theorem completedStepAdvancesPcByItsLength : Obligations.CompletedStepAdvancesPcByItsLength := by
  intro s t h ht hop
  obtain ⟨k, rfl⟩ | ⟨hs, -⟩ | ⟨i, hs, he, hrun⟩ := step_outcome h
  · exact absurd rfl ht
  · exact absurd (by rw [spells_opcode hs]; decide) hop
  · rw [spells_opcode hs] at hop ⊢
    obtain ⟨k, rfl⟩ | hn | hpc := effect_pc he
    · exact absurd rfl ht
    · have hbytes : ∀ n ∈ [OpName.call, .hlt], (opcodeMap n).toNat ∈ [0x50, 0x01] := by decide
      exact absurd (hbytes _ hn) hop
    · rw [opcodeMap_div_64]
      omega

/-! ## A memory of NOPs -/

/-- The step at a NOP before address 255 moves pc by one (spec/42_handlers.md R151). -/
theorem step_nop {s : State} (hr : s.run = .fetching) (hop : s.mem.read s.pc.toNat = 0) (hp : s.pc.toNat < 255) :
    step s = .next (s.setPc (BitVec.ofNat 8 (s.pc.toNat + 1))) := by
  rw [step_of_spells hr (spells_one (i := .nop) rfl hop)]
  exact congrArg s.commit (advance_ok (n := 0) hp)

/-- At address 255 there is no next address (spec/40_cycle.md R105). -/
theorem step_nop_last {s : State} (hr : s.run = .fetching) (hop : s.mem.read s.pc.toNat = 0) (hp : s.pc.toNat = 255) :
    FaultsWith (step s) s .memoryOutOfRange := by
  have hadv : s.advance 0 = .error .memoryOutOfRange := advance_error (by omega)
  rw [step_of_spells hr (spells_one (i := .nop) rfl hop)]
  exact (congrArg s.commit hadv).trans (commit_error_faultsWith s _)

/-- As many steps over NOPs as there are addresses up to 255 move pc alone. -/
theorem run_nops {s : State} {k : Nat} (hr : s.run = .fetching) (hk : s.pc.toNat + k ≤ 255)
    (hnop : ∀ a, s.pc.toNat ≤ a → a ≤ 255 → s.mem.read a = 0) :
    Host.Core.run Sys2Proof.core k s = .next (s.setPc (BitVec.ofNat 8 (s.pc.toNat + k))) := by
  induction k with
  | zero => simp [Host.Core.run, State.setPc]
  | succ k ih =>
    have hpc : (BitVec.ofNat 8 (s.pc.toNat + k)).toNat = s.pc.toNat + k := by simp; omega
    have hstep := step_nop (s := s.setPc (BitVec.ofNat 8 (s.pc.toNat + k))) hr
    simp only [State.setPc_pc, State.setPc_mem, hpc] at hstep
    rw [run_succ_last (ih (by omega)), hstep (hnop _ (by omega) (by omega)) (by omega)]
    rfl

/-- Settles O52: the NOPs from pc on lead to address 255, where the next advance has no address left. -/
theorem nopMemoryRunsOffTheEnd : Obligations.NopMemoryRunsOffTheEnd := by
  intro s hr hnop
  have hle : s.pc.toNat ≤ 255 := Nat.le_of_lt_succ s.pc.isLt
  refine ⟨?_, step_nop_last hr (hnop 255 hle (Nat.le_refl 255)) rfl⟩
  rw [run_nops hr (by omega) hnop, Nat.add_sub_cancel' hle]
  rfl

end Sys2Proof.Machine
end

section
/-! Proofs of the statements about the ALU (spec/41_alu.md): the value of each result as a natural number, put into the
rules of the two-register and the one-register shape. -/

namespace Sys2Proof.Machine

/-! ## The results as naturals -/

section Results

variable (x y : Byte)

theorem aluAdd_toNat : (aluAdd x y).toNat = (x.toNat + y.toNat) % 256 := BitVec.toNat_ofNat ..

theorem aluMul_toNat : (aluMul x y).toNat = x.toNat * y.toNat % 256 := BitVec.toNat_ofNat ..

theorem aluInc_toNat : (aluInc x).toNat = (x.toNat + 1) % 256 := BitVec.toNat_ofNat ..

/-- The mathematical difference, made nonnegative by adding 256 (spec/41_alu.md R122). -/
theorem aluSub_toNat : (aluSub x y).toNat = (x.toNat + 256 - y.toNat) % 256 := by
  have hy : y.toNat < 256 := y.isLt
  rw [aluSub, BitVec.toNat_ofInt]
  omega

/-- Subtracting 1 is adding 255, modulo 256 (spec/41_alu.md R127). -/
theorem aluDec_toNat : (aluDec x).toNat = (x.toNat + 255) % 256 := by
  rw [aluDec, BitVec.toNat_ofInt]
  omega

theorem aluNot_toNat : (aluNot x).toNat = 255 - x.toNat := BitVec.toNat_not

/-- A shift of 8 or more moves every bit out: 2^8 divides the product (spec/41_alu.md R132). -/
theorem aluShl_toNat : (aluShl x y).toNat = if 8 ≤ y.toNat then 0 else x.toNat * 2 ^ y.toNat % 256 := by
  rw [aluShl, BitVec.toNat_ofNat, Nat.shiftLeft_eq]
  split
  · next h => exact Nat.mod_eq_zero_of_dvd (Dvd.dvd.mul_left (pow_dvd_pow 2 h) _)
  · rfl

/-- A shift of 8 or more leaves nothing: a byte is below 2^8 (spec/41_alu.md R133). -/
theorem aluShr_toNat : (aluShr x y).toNat = if 8 ≤ y.toNat then 0 else x.toNat / 2 ^ y.toNat := by
  have hfits : x.toNat / 2 ^ y.toNat < 2 ^ 8 := lt_of_le_of_lt (Nat.div_le_self ..) x.isLt
  rw [aluShr, BitVec.toNat_ofNat, Nat.shiftRight_eq_div_pow, Nat.mod_eq_of_lt hfits]
  split
  · next h => exact Nat.div_eq_of_lt (lt_of_lt_of_le x.isLt (Nat.pow_le_pow_right (by decide) h))
  · rfl

variable {x y}

theorem aluDiv_zero (h : y.toNat = 0) : aluDiv x y = .error .divisionByZero :=
  if_pos (BitVec.eq_of_toNat_eq h)

/-- The quotient is no larger than the dividend, so it is a byte (spec/41_alu.md R124). -/
theorem aluDiv_ok (h : y.toNat ≠ 0) : ∃ w, aluDiv x y = .ok w ∧ w.toNat = x.toNat / y.toNat := by
  refine ⟨_, if_neg fun hy => h (by rw [hy]; rfl), ?_⟩
  exact (BitVec.toNat_ofNat ..).trans (Nat.mod_eq_of_lt (lt_of_le_of_lt (Nat.div_le_self ..) x.isLt))

theorem aluMod_zero (h : y.toNat = 0) : aluMod x y = .error .divisionByZero :=
  if_pos (BitVec.eq_of_toNat_eq h)

/-- The remainder is no larger than the dividend, so it is a byte (spec/41_alu.md R125). -/
theorem aluMod_ok (h : y.toNat ≠ 0) : ∃ w, aluMod x y = .ok w ∧ w.toNat = x.toNat % y.toNat := by
  refine ⟨_, if_neg fun hy => h (by rw [hy]; rfl), ?_⟩
  exact (BitVec.toNat_ofNat ..).trans (Nat.mod_eq_of_lt (lt_of_le_of_lt (Nat.mod_le ..) x.isLt))

end Results

/-! ## The rules of the two-register shape -/

/-- The two-register rule where a result always exists. -/
theorem alu2_total_rule {f : Byte → Byte → Byte} {result : Nat → Nat → Nat}
    (h : ∀ x y, (f x y).toNat = result x.toNat y.toNat) :
    TwoRegisterRule (alu2 fun x y => .ok (f x y)) (fun x y => some (result x y)) := by
  refine alu2_rule (fun x y hv => nomatch hv) fun x y v hv => ⟨f x y, rfl, ?_⟩
  cases hv
  exact h x y

/-- The two-register rule where a result exists exactly for a divisor other than 0. -/
theorem alu2_divisor_rule {f : Byte → Byte → Except FaultKind Byte} (divisor result : Nat → Nat → Nat)
    (hzero : ∀ x y : Byte, divisor x.toNat y.toNat = 0 → f x y = .error .divisionByZero)
    (hok : ∀ x y : Byte, divisor x.toNat y.toNat ≠ 0 → ∃ w, f x y = .ok w ∧ w.toNat = result x.toNat y.toNat) :
    TwoRegisterRule (alu2 f) (fun x y => if divisor x y = 0 then none else some (result x y)) := by
  refine alu2_rule (fun x y hv => ?_) fun x y v hv => ?_
  · split at hv
    · next h => exact hzero x y h
    · cases hv
  · split at hv
    · cases hv
    · next h => cases hv; exact hok x y h

/-! ## Addition, subtraction, multiplication -/

/-- Settles O17: the result of ADD is the sum modulo 256. -/
theorem addWrapsModulo256 : Obligations.AddWrapsModulo256 :=
  ⟨fun a b => decode_encode_append (.add a b), alu2_total_rule aluAdd_toNat⟩

/-- Settles O18: the result of SUB is the difference modulo 256. -/
theorem subWrapsModulo256 : Obligations.SubWrapsModulo256 :=
  ⟨fun a b => decode_encode_append (.sub a b), alu2_total_rule aluSub_toNat⟩

/-- Settles O19: the result of MUL is the product modulo 256. -/
theorem mulKeepsTheLowByte : Obligations.MulKeepsTheLowByte :=
  ⟨fun a b => decode_encode_append (.mul a b), alu2_total_rule aluMul_toNat⟩

/-- Settles O22: the result of INC is the successor modulo 256. -/
theorem incWrapsModulo256 : Obligations.IncWrapsModulo256 :=
  ⟨fun a => decode_encode_append (.inc a), alu1_rule aluInc_toNat⟩

/-- Settles O23: the result of DEC is the predecessor modulo 256. -/
theorem decWrapsModulo256 : Obligations.DecWrapsModulo256 :=
  ⟨fun a => decode_encode_append (.dec a), alu1_rule aluDec_toNat⟩

/-! ## Division -/

/-- Settles O20: in either order the divisor alone decides between the fault and the quotient. -/
theorem divFloorsInEitherOperandOrder : Obligations.DivFloorsInEitherOperandOrder :=
  ⟨fun a b => decode_encode_append (.div a b),
    alu2_divisor_rule (fun _ y => y) (fun x y => x / y) (fun _ _ => aluDiv_zero) (fun _ _ => aluDiv_ok),
    alu2_divisor_rule (fun x _ => x) (fun x y => y / x) (fun _ _ => aluDiv_zero) (fun _ _ => aluDiv_ok)⟩

/-- Settles O21: the divisor decides between the fault and the remainder. -/
theorem modLeavesTheRemainder : Obligations.ModLeavesTheRemainder :=
  ⟨fun a b => decode_encode_append (.mod a b),
    alu2_divisor_rule (fun _ y => y) (fun x y => x % y) (fun _ _ => aluMod_zero) (fun _ _ => aluMod_ok)⟩

/-- Settles O31: the rules of DIV and MOD give the quotient and the remainder of the same two values. -/
theorem divAndModSatisfyTheDivisionLaw : Obligations.DivAndModSatisfyTheDivisionLaw := by
  intro i j s hp hj
  have hne : (s.reg j).toNat ≠ 0 := fun h => hj (BitVec.eq_of_toNat_eq h)
  obtain ⟨-, ⟨-, -, hdiv⟩, -⟩ := divFloorsInEitherOperandOrder
  obtain ⟨-, -, -, hmod⟩ := modLeavesTheRemainder
  obtain ⟨t, ht, hquot, -⟩ := (hdiv i j s _ (if_neg hne)).2 hp
  obtain ⟨u, hu, hrem, -⟩ := (hmod i j s _ (if_neg hne)).2 hp
  refine ⟨t, u, ht, hu, ?_, ?_⟩
  · rw [hquot, hrem, Nat.div_add_mod]
  · rw [hrem]
    exact Nat.mod_lt _ (Nat.pos_of_ne_zero hne)

/-! ## Bitwise operations and shifts -/

/-- Settles O24: AND of bytes is AND of their values. -/
theorem andIsBitwise : Obligations.AndIsBitwise :=
  ⟨fun a b => decode_encode_append (.and a b), alu2_total_rule BitVec.toNat_and⟩

/-- Settles O25: OR of bytes is OR of their values. -/
theorem orIsBitwise : Obligations.OrIsBitwise :=
  ⟨fun a b => decode_encode_append (.or a b), alu2_total_rule BitVec.toNat_or⟩

/-- Settles O26: XOR of bytes is XOR of their values. -/
theorem xorIsBitwise : Obligations.XorIsBitwise :=
  ⟨fun a b => decode_encode_append (.xor a b), alu2_total_rule BitVec.toNat_xor⟩

/-- Settles O27: the complement of a byte is its distance from 255. -/
theorem notComplementsWithinEightBits : Obligations.NotComplementsWithinEightBits :=
  ⟨fun a => decode_encode_append (.not a), alu1_rule aluNot_toNat⟩

/-- Settles O28: the left shift is a product with a power of 2, which vanishes modulo 256 from 2^8 on. -/
theorem shlSaturatesToZero : Obligations.ShlSaturatesToZero :=
  ⟨fun a b => decode_encode_append (.shl a b), alu2_total_rule aluShl_toNat⟩

/-- Settles O29: the right shift is a quotient by a power of 2, which vanishes from 2^8 on. -/
theorem shrIsLogicalAndSaturatesToZero : Obligations.ShrIsLogicalAndSaturatesToZero :=
  ⟨fun a b => decode_encode_append (.shr a b), alu2_total_rule aluShr_toNat⟩

/-! ## Comparison -/

theorem execCmp_bad_register {a b : Byte} (s : State) (h : 8 ≤ a.toNat ∨ 8 ≤ b.toNat) :
    execCmp a b s = s.commit (.error .registerOutOfRange) := by
  obtain ⟨i, rfl, hi⟩ | ⟨-, hi⟩ := checkReg_cases a
  · have hb : 8 ≤ b.toNat := h.resolve_left (by rw [regByte_toNat]; omega)
    simp [execCmp, checkReg_bad hb, bind, Except.bind]
  · simp [execCmp, hi, bind, Except.bind]

/-- With both operands naming registers, CMP is its advance (spec/41_alu.md R134). -/
theorem execCmp_regByte (i j : RegIdx) (s : State) :
    execCmp (regByte i) (regByte j) s = s.commit (s.advance 2) := by
  simp [execCmp, bind, Except.bind]

/-- Settles O30: after the register checks CMP is its advance alone, which fails from pc 253 on. -/
theorem cmpOnlyAdvancesPc : Obligations.CmpOnlyAdvancesPc := by
  refine ⟨fun a b => decode_encode_append (.cmp a b), fun a b s h => execCmp_bad_register s h,
    fun i j s => ⟨fun hp => ?_, fun hp => ?_⟩⟩
  · have hadv : s.advance 2 = .error .memoryOutOfRange := advance_error (by omega)
    exact (execCmp_regByte i j s).trans (congrArg s.commit hadv)
  · have hend : s.pc.toNat + 2 + 1 ≤ 255 := by omega
    have hcmp := (execCmp_regByte i j s).trans (congrArg s.commit (advance_ok hend))
    exact ⟨_, hcmp, toNat_next hend, rfl, keeps_setPc ..⟩

end Sys2Proof.Machine
end

section
/-! Proofs of the statements about the handlers (spec/42_handlers.md): the checks of a handler one at a time, what each
handler does where they pass, and the two laws of the stack that follow from it. -/

namespace Sys2Proof.Machine

/-! ## The checks of a handler, in their order -/

section Checks

variable {α : Type} {s t : State} {n : Nat} {r : Except FaultKind α} {g : α → Except FaultKind State}

/-- A check that fails is the fault taken, whatever would come after it. -/
theorem commit_check_fails {k : FaultKind} (h : r = .error k) : FaultsWith (s.commit (r >>= g)) s k := by
  subst h
  exact commit_error_faultsWith s k

/-- A check that passes leaves the rest of the handler. -/
theorem commit_check_passes {x : α} (h : r = .ok x) : s.commit (r >>= g) = s.commit (g x) := by
  subst h
  rfl

/-- The last check, the advance: without a next address within 0..255 no staged write takes effect. -/
theorem commit_advance_past_end (hpc : t.pc = s.pc) (h : 255 < s.pc.toNat + n + 1) :
    FaultsWith (s.commit (t.advance n)) s .memoryOutOfRange := by
  have hadv : t.advance n = .error .memoryOutOfRange := advance_error (hpc ▸ h)
  exact (congrArg s.commit hadv).trans (commit_error_faultsWith s _)

theorem commit_advance (hpc : t.pc = s.pc) (h : s.pc.toNat + n + 1 ≤ 255) :
    s.commit (t.advance n) = .next (t.setPc (BitVec.ofNat 8 (s.pc.toNat + n + 1))) := by
  rw [← hpc] at h ⊢
  exact congrArg s.commit (advance_ok h)

end Checks

/-! ## NOP, HLT, LDI, PRN -/

/-- Settles O32: NOP is its advance alone. -/
theorem nopOnlyAdvancesPc : Obligations.NopOnlyAdvancesPc := by
  refine ⟨decode_encode_append .nop, fun s => ⟨fun hp => ?_, fun hp => ?_⟩⟩
  · exact commit_advance_past_end rfl (by omega)
  · exact ⟨_, commit_advance rfl (by omega), toNat_next (n := 0) (by omega), rfl, keeps_setPc ..⟩

/-- Settles O33: HLT has no check, and its one write is to the run state. -/
theorem hltHaltsAndKeepsPc : Obligations.HltHaltsAndKeepsPc :=
  ⟨decode_encode_append .hlt,
    fun s => ⟨s.halt, commit_ok s s.halt, rfl, rfl, rfl, rfl, fun _ => rfl, fun _ => rfl⟩⟩

/-- Settles O34: only the first operand is checked, and the second is written as it is. -/
theorem ldiLoadsTheImmediate : Obligations.LdiLoadsTheImmediate := by
  refine ⟨fun r v => decode_encode_append (.ldi r v), fun r v s h => commit_check_fails (checkReg_bad h),
    fun i v s => ?_⟩
  have hexec : exec (.ldi (regByte i) v) s = s.commit ((s.setReg i v).advance 2) :=
    commit_check_passes (checkReg_regByte i)
  rw [hexec]
  refine ⟨fun hp => ?_, fun hp => ?_⟩
  · exact commit_advance_past_end rfl (by omega)
  · exact ⟨_, commit_advance rfl (by omega), State.setReg_reg_same s v i, toNat_next (by omega), rfl,
      keeps_setReg_setPc ..⟩

/-- Settles O35: the emitted byte is committed with the advance, or not at all. -/
theorem prnAppendsTheRegister : Obligations.PrnAppendsTheRegister := by
  refine ⟨fun r => decode_encode_append (.prn r), fun r s h => commit_check_fails (checkReg_bad h), fun i s => ?_⟩
  have hexec : exec (.prn (regByte i)) s = s.commit ((s.emit (s.reg i)).advance 1) :=
    commit_check_passes (checkReg_regByte i)
  rw [hexec]
  refine ⟨fun hp => ?_, fun hp => ?_⟩
  · exact commit_advance_past_end rfl (by omega)
  · exact ⟨_, commit_advance rfl (by omega), rfl, toNat_next (by omega), fun _ _ => rfl, fun _ _ => rfl, rfl, rfl⟩

/-! ## PUSH, POP, CALL -/

/-- The state after a CALL of register `r` that completes (spec/42_handlers.md R162, R163). -/
def State.afterCall (s : State) (r : RegIdx) : State :=
  (s.decSp.memWrite s.pushAddr (BitVec.ofNat 8 (s.pc.toNat + 2))).setPc (s.decSp.reg r)

section Stack

variable {s : State} (r d : RegIdx)

/-- With its operand naming a register, PUSH is the stack checks, then the store and the advance. -/
theorem execPush_regByte : exec (.push (regByte r)) s =
    s.commit (checkPush s >>= fun _ => (s.decSp.memWrite s.pushAddr (s.decSp.reg r)).advance 1) :=
  commit_check_passes (checkReg_regByte r)

theorem execPush_past_end (h0 : 0 < s.sp.toNat) (h1 : s.sp.toNat ≤ 0xF4) (hp : 254 ≤ s.pc.toNat) :
    FaultsWith (exec (.push (regByte r)) s) s .memoryOutOfRange := by
  rw [execPush_regByte, commit_check_passes (checkPush_ok h0 h1)]
  exact commit_advance_past_end rfl (by omega)

/-- With its operand naming a register, POP is the stack check, then the load, the increment and the advance. -/
theorem execPop_regByte : exec (.pop (regByte d)) s =
    s.commit (checkPop s >>= fun _ =>
      ((s.setReg d (s.memRead s.sp)).setSp ((s.setReg d (s.memRead s.sp)).sp + 1)).advance 1) :=
  commit_check_passes (checkReg_regByte d)

theorem execPop_past_end (h1 : s.sp.toNat < 0xF4) (hp : 254 ≤ s.pc.toNat) :
    FaultsWith (exec (.pop (regByte d)) s) s .memoryOutOfRange := by
  rw [execPop_regByte, commit_check_passes (checkPop_ok h1)]
  exact commit_advance_past_end rfl (by omega)

/-- With its operand naming a register, CALL is the stack checks, then the check of the return address. -/
theorem execCall_regByte : exec (.call (regByte r)) s =
    s.commit (checkPush s >>= fun _ =>
      if s.pc.toNat + 2 > 255 then .error .memoryOutOfRange else .ok (s.afterCall r)) :=
  commit_check_passes (checkReg_regByte r)

theorem execCall_past_end (h0 : 0 < s.sp.toNat) (h1 : s.sp.toNat ≤ 0xF4) (hp : 254 ≤ s.pc.toNat) :
    FaultsWith (exec (.call (regByte r)) s) s .memoryOutOfRange := by
  rw [execCall_regByte, commit_check_passes (checkPush_ok h0 h1), if_pos (by omega)]
  exact commit_error_faultsWith s _

theorem execCall_completes (h0 : 0 < s.sp.toNat) (h1 : s.sp.toNat ≤ 0xF4) (hp : s.pc.toNat ≤ 253) :
    exec (.call (regByte r)) s = .next (s.afterCall r) := by
  rw [execCall_regByte, commit_check_passes (checkPush_ok h0 h1), if_neg (by omega), commit_ok]

theorem execCall_overflow (h : s.sp = 0) : FaultsWith (exec (.call (regByte r)) s) s .stackOverflow := by
  rw [execCall_regByte]
  exact commit_check_fails (checkPush_overflow h)

/-- The cell at the store address holds the return address (spec/40_cycle.md R104). -/
theorem afterCall_read_same (hw : s.mem.wf = true) (hp : s.pc.toNat ≤ 253) :
    ((s.afterCall r).mem.read s.pushAddr.toNat).toNat = s.pc.toNat + 2 := by
  have hread : (s.afterCall r).mem.read s.pushAddr.toNat = BitVec.ofNat 8 (s.pc.toNat + 2) :=
    (State.memWrite_read (s := s.decSp) _ hw).trans (if_pos rfl)
  rw [hread]
  exact toNat_next (n := 1) (by omega)

/-- A POP keeps every register but its own and R7, and all memory. -/
theorem keeps_pop (s : State) (d : RegIdx) : Keeps s (s.afterPop d) [d, 7] [] := by
  refine ⟨fun j hj => ?_, fun _ _ => rfl, rfl, rfl⟩
  simp only [List.mem_cons, List.not_mem_nil, or_false, not_or] at hj
  obtain ⟨hd, h7⟩ := hj
  simp [State.afterPop, State.setSp_reg, State.setReg_reg, Ne.symm hd, Ne.symm h7]

end Stack

/-- Settles O36: the register check, the stack checks and the advance in their order, then the push. -/
theorem pushStoresBelowTheStackPointer : Obligations.PushStoresBelowTheStackPointer := by
  refine ⟨fun r => decode_encode_append (.push r), fun r s h => commit_check_fails (checkReg_bad h),
    fun i s => ⟨fun h0 => ?_, fun h1 => ?_, fun h0 h1 => ⟨execPush_past_end i h0 h1, fun hp => ?_⟩⟩⟩
  · rw [execPush_regByte]
    exact commit_check_fails (checkPush_overflow h0)
  · rw [execPush_regByte]
    exact commit_check_fails (checkPush_underflow h1)
  · refine ⟨s.afterPush i, execPush_completes i h0 h1 hp, pushAddr_toNat h0, rfl, fun hw => ?_, afterPush_pc i hp, rfl,
      keeps_push ..⟩
    rw [pushAddr_toNat h0, afterPush_read_same i hw h0, pushAddr_eq]

/-- Settles O37: the register check, the stack check and the advance in their order, then the pop. -/
theorem popLoadsFromTheStackPointer : Obligations.PopLoadsFromTheStackPointer := by
  refine ⟨fun r => decode_encode_append (.pop r), fun r s h => execPop_bad_register s h,
    fun i s => ⟨fun h1 => ?_, fun h1 => ⟨execPop_past_end i h1, fun hp => ?_⟩⟩⟩
  · rw [execPop_regByte]
    exact commit_check_fails (checkPop_underflow h1)
  · refine ⟨s.afterPop i, execPop_completes i h1 hp, fun h7 => ⟨afterPop_reg_same i h7, ?_⟩, fun h7 => ?_,
      afterPop_pc i hp, rfl, keeps_pop s i⟩
    · rw [afterPop_sp, if_neg h7, BitVec.toNat_add_of_lt (by simp; omega)]
      rfl
    · rw [afterPop_sp, if_pos h7, BitVec.toNat_add]
      rfl

/-- Settles O38: the register check, the stack checks and the check of the return address in their order, then the push
and the jump. -/
theorem callPushesTheReturnAddressAndJumps : Obligations.CallPushesTheReturnAddressAndJumps := by
  refine ⟨fun r => decode_encode_append (.call r), fun r s h => commit_check_fails (checkReg_bad h),
    fun i s => ⟨execCall_overflow i, fun h1 => ?_, fun h0 h1 => ⟨execCall_past_end i h0 h1, fun hp => ?_⟩⟩⟩
  · rw [execCall_regByte]
    exact commit_check_fails (checkPush_underflow h1)
  · exact ⟨s.afterCall i, execCall_completes i h0 h1 hp, pushAddr_toNat h0, rfl,
      fun hw => afterCall_read_same i hw hp, decSp_reg s i, rfl, keeps_push ..⟩

/-! ## Stack balance -/

/-- A POP right after a PUSH of the same register restores every register: SP in either case, since PUSH R7 stores the
address it pushes to. -/
theorem afterPush_afterPop_reg {s : State} (r j : RegIdx) (hw : s.mem.wf = true) (h0 : 0 < s.sp.toNat) :
    ((s.afterPush r).afterPop r).reg j = s.reg j := by
  have hpopped : (s.afterPush r).memRead (s.afterPush r).sp = if r = 7 then s.sp - 1 else s.reg r := by
    rw [State.memRead, afterPush_sp_toNat r h0, afterPush_read_same r hw h0]
  by_cases h7 : j = 7
  · rw [h7, ← State.sp_eq_reg, ← State.sp_eq_reg, afterPop_sp, hpopped, afterPush_sp]
    split <;> exact BitVec.sub_add_cancel ..
  · by_cases hr : j = r
    · subst hr
      rw [afterPop_reg_same j h7, hpopped, if_neg h7]
    · obtain ⟨hpush, -⟩ : Keeps s (s.afterPush r) [7] [s.pushAddr.toNat] := keeps_push ..
      obtain ⟨hpop, -⟩ := keeps_pop (s.afterPush r) r
      rw [hpop j (by simp [h7, hr]), hpush j (by simp [h7])]

/-- Settles O50: the push leaves the POP's bytes alone, so the next step is that POP, and it undoes the push to the
registers. -/
theorem pushThenPopRestoresRegisterAndStackPointer : Obligations.PushThenPopRestoresRegisterAndStackPointer := by
  intro s r hinv hr h0 h1 hp hpush hr1 hpop hr2 hop hoperand
  have hpc : (s.afterPush r).pc.toNat = s.pc.toNat + 2 := afterPush_pc r (by omega)
  have hsp : (s.afterPush r).sp.toNat = s.sp.toNat - 1 := afterPush_sp_toNat r h0
  have hstep : step s = .next (s.afterPush r) := by
    have hs : Spells s (.push (regByte r)) := spells_two rfl (by omega) hpush hr1
    rw [step_of_spells hr hs, execPush_completes r h0 h1 (by omega)]
  have hstep' : step (s.afterPush r) = .next ((s.afterPush r).afterPop r) := by
    have hs : Spells (s.afterPush r) (.pop (regByte r)) := by
      refine spells_two rfl (by omega) ?_ ?_
      · rw [hpc, afterPush_read_ne r h0 (Ne.symm hop), hpop]
        rfl
      · rw [hpc, afterPush_read_ne r h0 (Ne.symm hoperand), hr2]
    rw [step_of_spells ((afterPush_run r).trans hr) hs, execPop_completes r (by omega) (by omega)]
  refine ⟨(s.afterPush r).afterPop r, ?_, fun j => afterPush_afterPop_reg r j hinv.memWf h0, ?_, hr, rfl,
    afterPush_read_same r hinv.memWf h0, fun a ha => afterPush_read_ne r h0 ha⟩
  · rw [run_succ_of_step hstep, run_succ_of_step hstep']
    rfl
  · rw [afterPop_pc r (by omega), hpc]

/-! ## A CALL to itself in the reserved area -/

/-- The state of a core that stands at a CALL to its own address `p` in the reserved area, `k` calls after the empty
stack: every cell from SP to the stack top holds the return address. -/
structure SelfCalling (p : Byte) (r : RegIdx) (k : Nat) (t : State) : Prop where
  memWf : t.mem.wf = true
  running : t.run = .fetching
  atCall : t.pc = p
  target : t.reg r = p
  opcode : t.mem.read p.toNat = 0x50
  operand : t.mem.read (p.toNat + 1) = regByte r
  depth : t.sp.toNat + k = 0xF4
  returns : ∀ a : Nat, t.sp.toNat ≤ a → a < 0xF4 → (t.mem.read a).toNat = p.toNat + 2

section SelfCall

variable {p : Byte} {r : RegIdx} {k : Nat} {t : State}

theorem SelfCalling.step_eq (h : SelfCalling p r k t) (hp : p.toNat ≤ 0xFD) : step t = exec (.call (regByte r)) t := by
  obtain ⟨-, hrun, rfl, -, hop, hoperand, -, -⟩ := h
  exact step_of_spells hrun (spells_two rfl (by omega) hop hoperand)

/-- A call made while the stack has room completes. -/
theorem SelfCalling.step_completes (h : SelfCalling p r k t) (hp : p.toNat ≤ 0xFD) (hk : k < 0xF4) :
    step t = .next (t.afterCall r) := by
  have hdepth := h.depth
  rw [h.step_eq hp]
  exact execCall_completes r (by omega) (by omega) (h.atCall.symm ▸ hp)

/-- While the stack has room the call comes back to itself: it stores below the reserved area, so its own bytes stay. -/
theorem SelfCalling.afterCall (h : SelfCalling p r k t) (h7 : r ≠ 7) (hlo : 0xF4 ≤ p.toNat) (hp : p.toNat ≤ 0xFD)
    (hk : k < 0xF4) : SelfCalling p r (k + 1) (t.afterCall r) := by
  obtain ⟨hw, hrun, rfl, htarget, hop, hoperand, hdepth, hreturns⟩ := h
  have haddr : t.pushAddr.toNat = t.sp.toNat - 1 := pushAddr_toNat (by omega)
  have hsp : (t.afterCall r).sp.toNat = t.sp.toNat - 1 := haddr
  obtain ⟨hregs, hmem, -, -⟩ : Keeps t (t.afterCall r) [7] [t.pushAddr.toNat] := keeps_push ..
  have hkept : ∀ a, t.sp.toNat ≤ a → (t.afterCall r).mem.read a = t.mem.read a := fun a ha =>
    hmem a (by simp only [List.mem_singleton]; omega)
  have hother : (t.afterCall r).reg r = t.reg r := hregs r (by simpa using h7)
  refine ⟨State.memWrite_wf (s := t.decSp) hw, hrun, ?_, hother.trans htarget, ?_, ?_, by omega, fun a ha htop => ?_⟩
  · exact (decSp_reg t r).trans ((if_neg h7).trans htarget)
  · rw [hkept _ (by omega), hop]
  · rw [hkept _ (by omega), hoperand]
  · obtain heq | hlt : a = t.pushAddr.toNat ∨ t.sp.toNat ≤ a := by omega
    · rw [heq]
      exact afterCall_read_same r hw hp
    · rw [hkept a hlt]
      exact hreturns a hlt htop

/-- As many calls complete as there are cells below the stack top. -/
theorem SelfCalling.run {s : State} (h : SelfCalling p r 0 s) (h7 : r ≠ 7) (hlo : 0xF4 ≤ p.toNat) (hp : p.toNat ≤ 0xFD)
    (hk : k ≤ 0xF4) : ∃ t, Host.Core.run Sys2Proof.core k s = .next t ∧ SelfCalling p r k t := by
  induction k with
  | zero => exact ⟨s, rfl, h⟩
  | succ k ih =>
    obtain ⟨t, ht, hcalling⟩ := ih (by omega)
    exact ⟨t.afterCall r, (run_succ_last ht).trans (hcalling.step_completes hp hk), hcalling.afterCall h7 hlo hp hk⟩

end SelfCall

/-- Settles O53: after 244 calls SP has gone down from 0xF4 to 0, and the next call has no cell to store to. -/
theorem selfCallInTheReservedAreaOverflowsTheStack : Obligations.SelfCallInTheReservedAreaOverflowsTheStack := by
  intro s r hinv hr h7 htarget hlo hp hsp hop hoperand
  have hdepth0 : s.sp.toNat = 0xF4 := by rw [hsp]; rfl
  have hstart : SelfCalling s.pc r 0 s :=
    ⟨hinv.memWf, hr, rfl, htarget, hop, hoperand, hdepth0, fun a ha htop => by omega⟩
  obtain ⟨t, ht, hcalling⟩ := hstart.run h7 hlo hp (Nat.le_refl 0xF4)
  have hdepth := hcalling.depth
  have hempty : t.sp = 0 := BitVec.eq_of_toNat_eq (by simpa using hdepth)
  refine ⟨t, ht, hempty, hcalling.atCall, fun a ha => hcalling.returns a (by rw [hempty]; exact Nat.zero_le a) ha, ?_⟩
  rw [hcalling.step_eq hp]
  exact execCall_overflow r hempty

end Sys2Proof.Machine
end

section
/-! Proof of the statement about the declared and absent opcodes (spec/43_unimplemented.md): the opcode byte alone spells a
slot of R82, and executing the slot is FatalDecodeError. -/

namespace Sys2Proof.Machine

/-! ## The slots of R82 -/

/-- Bit 5 of a slot's byte is clear: the slot is not in the ALU map (spec/30_encoding.md R81). -/
theorem opcodeMap_absent_bit5 {n : OpName} (hn : n ∈ absentNames) : (opcodeMap n).getLsbD 5 = false := by
  have hdisjoint : ∀ k ∈ absentNames, k ∉ aluNames := by decide
  exact Bool.eq_false_iff.mpr (mt (opcodeMap_legal.aluField n).mp (hdisjoint n hn))

section Slot

variable {i : Instr} (hn : i.name ∈ absentNames)
include hn

/-- The instruction of a slot has no operands, and its whole effect is FatalDecodeError (spec/43_unimplemented.md R180). -/
theorem absent_operands_and_exec :
    i.operands = [] ∧ ∀ s, exec i s = s.commit (.error .fatalDecodeError) := by
  obtain ⟨j, htake, hexec⟩ := takeOperands_absent hn i.operands
  have hpair : (i, []) = (j, i.operands) := Except.ok.inj ((takeOperands_operands i).symm.trans htake)
  obtain ⟨rfl, hnil⟩ := Prod.mk.inj hpair
  exact ⟨hnil.symm, hexec⟩

theorem exec_absent_faultsWith (s : State) : FaultsWith (exec i s) s .fatalDecodeError := by
  obtain ⟨-, hexec⟩ := absent_operands_and_exec hn
  rw [hexec]
  exact commit_error_faultsWith s _

/-- The opcode byte is the whole encoding, so the decoder hands back every byte after it. -/
theorem decode_absent (rest : List Byte) : decode (opcodeMap i.name :: rest) = .ok (i, rest) := by
  obtain ⟨hnil, -⟩ := absent_operands_and_exec hn
  have henc : encode i = [opcodeMap i.name] := by rw [encode, encodeIn, hnil]
  simpa [henc] using decode_encode_append i rest

/-- The opcode byte alone spells the instruction, also at address 255. -/
theorem step_absent_faultsWith {s : State} (hr : s.run = .fetching) (hop : s.mem.read s.pc.toNat = opcodeMap i.name) :
    FaultsWith (step s) s .fatalDecodeError := by
  obtain ⟨hnil, -⟩ := absent_operands_and_exec hn
  rw [step_of_spells hr (spells_one hnil hop)]
  exact exec_absent_faultsWith hn s

end Slot

/-- Settles O39: each pair is the byte of a slot and the instruction of that slot. -/
theorem absentOpcodesFaultFatally : Obligations.AbsentOpcodesFaultFatally := by
  intro c hc
  obtain ⟨hop, hn⟩ : c.1 = opcodeMap c.2.name ∧ c.2.name ∈ absentNames := by
    revert c
    decide
  rw [hop]
  exact ⟨opcodeMap_absent_bit5 hn, decode_absent hn, exec_absent_faultsWith hn,
    fun _ hr => step_absent_faultsWith hn hr⟩

end Sys2Proof.Machine
end

section
/-! Proof of the statement about the fault priority (spec/60_exceptions.md R206): the checks that follow the fetch, read off
the decoded instruction, are those of `State.firstFault`, and `exec` makes them in that order. -/

namespace Sys2Proof.Machine

/-! ## The checks of a decoded instruction -/

/-- The check of a register operand, before the checks after it (spec/40_cycle.md R103). -/
@[simp] def registerCheck (a : Byte) (rest : Option FaultKind) : Option FaultKind :=
  if 8 ≤ a.toNat then some .registerOutOfRange else rest

/-- The check of a divisor, before the checks after it (spec/41_alu.md R124, R125). -/
@[simp] def divisorCheck (y : Byte) (rest : Option FaultKind) : Option FaultKind :=
  if y = 0 then some .divisionByZero else rest

/-- The stack checks of PUSH and CALL, before the checks after them (spec/42_handlers.md R156, R162). -/
@[simp] def pushCheck (s : State) (rest : Option FaultKind) : Option FaultKind :=
  if s.sp.toNat = 0 then some .stackOverflow else if 0xF4 < s.sp.toNat then some .stackUnderflow else rest

/-- The stack check of POP, before the checks after it (spec/42_handlers.md R158). -/
@[simp] def popCheck (s : State) (rest : Option FaultKind) : Option FaultKind :=
  if 0xF4 ≤ s.sp.toNat then some .stackUnderflow else rest

/-- The last check: the address `m` bytes after pc is within 0..255 (spec/40_cycle.md R105; for CALL, the return address
of spec/42_handlers.md R162). -/
@[simp] def nextAddressCheck (s : State) (m : Nat) : Option FaultKind :=
  if 255 < s.pc.toNat + m then some .memoryOutOfRange else none

/-- The first check of spec/60_exceptions.md R206 that fails for an instruction whose fetch raised no fault. -/
def firstFailingCheck (s : State) : Instr → Option FaultKind
  | .add a b | .sub a b | .mul a b | .cmp a b | .and a b | .or a b | .xor a b | .shl a b | .shr a b =>
    registerCheck a <| registerCheck b <| nextAddressCheck s 3
  | .div a b | .mod a b => registerCheck a <| registerCheck b <| divisorCheck (s.regOf b) <| nextAddressCheck s 3
  | .ldi r _ => registerCheck r <| nextAddressCheck s 3
  | .inc a | .dec a | .not a | .prn a => registerCheck a <| nextAddressCheck s 2
  | .push r | .call r => registerCheck r <| pushCheck s <| nextAddressCheck s 2
  | .pop r => registerCheck r <| popCheck s <| nextAddressCheck s 2
  | .nop => nextAddressCheck s 1
  | .hlt => none
  | .pra | .ret | .int | .iret | .jmp | .jeq | .jne | .jgt | .jlt | .jle | .jge | .ld | .st => some .fatalDecodeError

/-! ## The checks of R206, read from the raw bytes -/

section RawBytes

variable {s : State} {i : Instr}

theorem spells_second {a b : Byte} {l : List Byte} (h : Spells s i) (ho : i.operands = a :: b :: l) :
    s.mem.read (s.pc.toNat + 2) = b := by
  simpa [encode, encodeIn, ho] using h.2 2 (by simp [encode, encodeIn, ho])

/-- A spelled instruction lies within addresses 0..255, so pc is below the first address where it would not fit. -/
theorem spells_fits {m : Nat} (h : Spells s i) (hm : i.operands.length + m = 256) : ¬ m ≤ s.pc.toNat := by
  have hend : s.pc.toNat + (i.operands.length + 1) ≤ 256 := h.1
  omega

theorem getLsbD_five_eq (op : Byte) : op.getLsbD 5 = decide (op.toNat / 32 % 2 = 1) :=
  Nat.testBit_eq_decide_div_mod_eq

theorem firstFault_outside_tables (ht : (s.mem.read s.pc.toNat).toNat ∉ tableOpcodes) :
    s.firstFault = some
      (if (s.mem.read s.pc.toNat).getLsbD 5 then .unsupportedALUOperation else .fatalDecodeError) := by
  simp only [State.firstFault, if_pos ht, getLsbD_five_eq, decide_eq_true_eq]

theorem firstFault_past_end (ht : (s.mem.read s.pc.toNat).toNat ∈ tableOpcodes)
    (hp : 255 < s.pc.toNat + (s.mem.read s.pc.toNat).toNat / 64) : s.firstFault = some .memoryOutOfRange := by
  simp only [State.firstFault, if_neg (not_not_intro ht), if_pos hp]

/-- Bytes that spell an instruction pass the checks of the fetch; what is left of R206 are the instruction's own checks. -/
theorem firstFault_of_spells (hs : Spells s i) : s.firstFault = firstFailingCheck s i := by
  have hop : (s.mem.read s.pc.toNat).toNat = (opcodeMap i.name).toNat := by rw [spells_opcode hs]
  cases i with
  | add | sub | mul | cmp | and | or | xor | shl | shr | div | mod =>
    simp +arith [State.firstFault, hop, spells_first hs rfl, spells_second hs rfl, spells_fits (m := 254) hs rfl,
      Instr.name, opcodeMap, tableOpcodes, firstIsRegister, secondIsRegister, firstFailingCheck]
  | ldi =>
    simp +arith [State.firstFault, hop, spells_first hs rfl, spells_fits (m := 254) hs rfl,
      Instr.name, opcodeMap, tableOpcodes, firstIsRegister, secondIsRegister, firstFailingCheck]
  | inc | dec | not | prn | push | call | pop =>
    simp +arith [State.firstFault, hop, spells_first hs rfl, spells_fits (m := 255) hs rfl,
      Instr.name, opcodeMap, tableOpcodes, firstIsRegister, secondIsRegister, firstFailingCheck, State.sp_eq_reg]
  | nop | hlt =>
    simp +arith [State.firstFault, hop, spells_fits (m := 256) hs rfl,
      Instr.name, opcodeMap, tableOpcodes, firstIsRegister, secondIsRegister, firstFailingCheck]
  | pra | ret | int | iret | jmp | jeq | jne | jgt | jlt | jle | jge | ld | st =>
    simp [State.firstFault, hop, Instr.name, opcodeMap, tableOpcodes, firstFailingCheck]

end RawBytes

/-! ## The checks that exec makes -/

/-- The outcome is the fault taken in `s`, or, for none, a next state outside FAULTED with the fault record of `s`. -/
def Answers (o : Host.Outcome State Fault Refusal) (s : State) (f : Option FaultKind) : Prop :=
  (∀ k, f = some k → FaultsWith o s k) ∧ (f = none → ∃ t, o = .next t ∧ t.run ≠ .faulted ∧ t.fault = s.fault)

theorem answers_fault {o : Host.Outcome State Fault Refusal} {s : State} {k : FaultKind} (h : FaultsWith o s k) :
    Answers o s (some k) :=
  ⟨fun _ hk => Option.some.inj hk ▸ h, nofun⟩

/-- The staged transaction of an instruction raises the fault, or, for none, completes outside FAULTED with the fault
record of `s`. -/
inductive Stages (s : State) : Option FaultKind → Except FaultKind State → Prop
  | raises (k : FaultKind) : Stages s (some k) (.error k)
  | completes {t : State} (hrun : t.run ≠ .faulted) (hfault : t.fault = s.fault) : Stages s none (.ok t)

namespace Stages

variable {s t : State} {f : Option FaultKind}

theorem commit {r : Except FaultKind State} (h : Stages s f r) : Answers (s.commit r) s f := by
  cases h with
  | raises k => exact answers_fault (commit_error_faultsWith s k)
  | completes hrun hfault => exact ⟨nofun, fun _ => ⟨_, rfl, hrun, hfault⟩⟩

theorem register {g : RegIdx → Except FaultKind State} (a : Byte) (hg : ∀ i, a = regByte i → Stages s f (g i)) :
    Stages s (registerCheck a f) (checkReg a >>= g) := by
  obtain ⟨i, rfl, hi⟩ | ⟨ha, hi⟩ := checkReg_cases a
  · rw [hi, registerCheck, if_neg (by rw [regByte_toNat]; omega)]
    exact hg i rfl
  · rw [hi, registerCheck, if_pos ha]
    exact .raises _

/-- A result that exists exactly for a divisor other than 0. -/
theorem divisor {r : Except FaultKind Byte} {g : Byte → Except FaultKind State} {y : Byte}
    (hzero : y.toNat = 0 → r = .error .divisionByZero) (hok : y.toNat ≠ 0 → ∃ w, r = .ok w)
    (hg : ∀ w, Stages s f (g w)) : Stages s (divisorCheck y f) (r >>= g) := by
  by_cases hy : y = 0
  · rw [hzero (by rw [hy]; rfl), divisorCheck, if_pos hy]
    exact .raises _
  · obtain ⟨w, hw⟩ := hok fun h => hy (BitVec.eq_of_toNat_eq h)
    rw [hw, divisorCheck, if_neg hy]
    exact hg w

theorem push {g : Unit → Except FaultKind State} (hg : Stages s f (g ())) :
    Stages s (pushCheck s f) (checkPush s >>= g) := by
  obtain ⟨h0, hc⟩ | ⟨h1, hc⟩ | ⟨h0, h1, hc⟩ := checkPush_cases s
  · rw [hc, pushCheck, if_pos (by rw [h0]; rfl)]
    exact .raises _
  · rw [hc, pushCheck, if_neg (by omega), if_pos h1]
    exact .raises _
  · rw [hc, pushCheck, if_neg (by omega), if_neg (by omega)]
    exact hg

theorem pop {g : Unit → Except FaultKind State} (hg : Stages s f (g ())) :
    Stages s (popCheck s f) (checkPop s >>= g) := by
  by_cases h : 0xF4 ≤ s.sp.toNat
  · rw [checkPop_underflow h, popCheck, if_pos h]
    exact .raises _
  · rw [checkPop_ok (Nat.lt_of_not_le h), popCheck, if_neg h]
    exact hg

theorem advance (n : Nat) (hpc : t.pc = s.pc) (hrun : t.run ≠ .faulted) (hfault : t.fault = s.fault) :
    Stages s (nextAddressCheck s (n + 1)) (t.advance n) := by
  by_cases h : 255 < s.pc.toNat + (n + 1)
  · rw [advance_error (hpc ▸ h), nextAddressCheck, if_pos h]
    exact .raises _
  · rw [advance_ok (by rw [hpc]; omega), nextAddressCheck, if_neg h]
    exact .completes hrun hfault

/-- CALL checks the return address, and jumps instead of advancing (spec/42_handlers.md R162). -/
theorem returnAddress (hrun : t.run ≠ .faulted) (hfault : t.fault = s.fault) :
    Stages s (nextAddressCheck s 2) (if s.pc.toNat + 2 > 255 then .error .memoryOutOfRange else .ok t) := by
  by_cases h : 255 < s.pc.toNat + 2
  · rw [nextAddressCheck, if_pos h, if_pos h]
    exact .raises _
  · rw [nextAddressCheck, if_neg h, if_neg h]
    exact .completes hrun hfault

end Stages

section Running

variable {s : State} (hs : s.run ≠ .faulted)
include hs

theorem alu2_total_answers (f : Byte → Byte → Byte) (a b : Byte) :
    Answers (alu2 (fun x y => .ok (f x y)) a b s) s (registerCheck a <| registerCheck b <| nextAddressCheck s 3) :=
  Stages.commit <| .register a fun i _ => .register b fun j _ =>
    .advance (t := s.setReg i (f (s.reg i) (s.reg j))) 2 rfl hs rfl

theorem alu2_divisor_answers (f : Byte → Byte → Except FaultKind Byte)
    (hzero : ∀ x y : Byte, y.toNat = 0 → f x y = .error .divisionByZero)
    (hok : ∀ x y : Byte, y.toNat ≠ 0 → ∃ w, f x y = .ok w) (a b : Byte) :
    Answers (alu2 f a b s) s
      (registerCheck a <| registerCheck b <| divisorCheck (s.regOf b) <| nextAddressCheck s 3) := by
  refine Stages.commit <| .register a fun i _ => .register b fun j hb => ?_
  rw [hb, State.regOf_regByte]
  exact .divisor (hzero _ _) (hok _ _) fun w => .advance (t := s.setReg i w) 2 rfl hs rfl

theorem alu1_answers (g : Byte → Byte) (a : Byte) :
    Answers (alu1 g a s) s (registerCheck a <| nextAddressCheck s 2) :=
  Stages.commit <| .register a fun i _ => .advance (t := s.setReg i (g (s.reg i))) 1 rfl hs rfl

/-- In a core that is not FAULTED every instruction makes its checks in the order of R206. -/
theorem exec_answers_firstFailingCheck (i : Instr) : Answers (exec i s) s (firstFailingCheck s i) := by
  cases i with
  | add => exact alu2_total_answers hs aluAdd _ _
  | sub => exact alu2_total_answers hs aluSub _ _
  | mul => exact alu2_total_answers hs aluMul _ _
  | and => exact alu2_total_answers hs aluAnd _ _
  | or => exact alu2_total_answers hs aluOr _ _
  | xor => exact alu2_total_answers hs aluXor _ _
  | shl => exact alu2_total_answers hs aluShl _ _
  | shr => exact alu2_total_answers hs aluShr _ _
  | div =>
    exact alu2_divisor_answers hs (aluDivIn Config.divOperandOrder) (fun _ _ => aluDiv_zero)
      (fun _ _ h => (aluDiv_ok h).imp fun _ => And.left) _ _
  | mod =>
    exact alu2_divisor_answers hs aluMod (fun _ _ => aluMod_zero) (fun _ _ h => (aluMod_ok h).imp fun _ => And.left) _ _
  | inc | dec | not => exact alu1_answers hs _ _
  | cmp a b => exact Stages.commit <| .register a fun _ _ => .register b fun _ _ => .advance 2 rfl hs rfl
  | nop => exact Stages.commit <| .advance 0 rfl hs rfl
  | hlt => exact Stages.commit <| .completes RunState.noConfusion rfl
  | ldi r v => exact Stages.commit <| .register r fun i _ => .advance (t := s.setReg i v) 2 rfl hs rfl
  | prn r => exact Stages.commit <| .register r fun i _ => .advance (t := s.emit (s.reg i)) 1 rfl hs rfl
  | push r =>
    exact Stages.commit <| .register r fun i _ => .push <|
      .advance (t := s.decSp.memWrite s.pushAddr (s.decSp.reg i)) 1 rfl hs rfl
  | pop r => exact Stages.commit <| .register r fun _ _ => .pop <| .advance 1 rfl hs rfl
  | call r => exact Stages.commit <| .register r fun i _ => .push <| .returnAddress (t := s.afterCall i) hs rfl
  | pra | ret | int | iret | jmp | jeq | jne | jgt | jlt | jle | jge | ld | st =>
    exact Stages.commit (.raises _)

end Running

/-! ## The step -/

/-- As many bytes as the format of a slot of the two tables has operands are an instruction's operands. -/
theorem takeOperands_full {n : OpName} {bytes : List Byte} (hn : n ∉ absentNames)
    (h : bytes.length = formatOperands n) : ∃ i, takeOperands n bytes = .ok (i, []) := by
  cases n with
  | add | sub | mul | div | mod | cmp | and | or | xor | shl | shr | ldi =>
    obtain ⟨a, b, rfl⟩ := List.length_eq_two.mp h
    exact ⟨_, rfl⟩
  | inc | dec | not | prn | push | pop | call =>
    obtain ⟨a, rfl⟩ := List.length_eq_one_iff.mp h
    exact ⟨_, rfl⟩
  | nop | hlt =>
    obtain rfl := List.length_eq_zero_iff.mp h
    exact ⟨_, rfl⟩
  | pra | ret | int | iret | jmp | jeq | jne | jgt | jlt | jle | jge | ld | st => exact absurd (by decide) hn

/-- All the bytes asked for are read, where they lie within addresses 0..255. -/
theorem readBytes_length {s : State} {a n : Nat} (h : a + n ≤ 256) : (s.readBytes a n).length = n := by
  induction n generalizing a with
  | zero => rfl
  | succ n ih => rw [readBytes_succ (by omega), List.length_cons, ih (by omega)]

/-- A byte of the two tables whose operand bytes lie within addresses 0..255 begins an instruction (spec/40_cycle.md R102). -/
theorem exists_spells {s : State} (ht : (s.mem.read s.pc.toNat).toNat ∈ tableOpcodes)
    (hp : s.pc.toNat + (s.mem.read s.pc.toNat).toNat / 64 ≤ 255) : ∃ i, Spells s i := by
  obtain ⟨n, hc, -, hn, hop⟩ | ⟨hnt, -⟩ | ⟨hnt, -⟩ := classify_cases (s.mem.read s.pc.toNat)
  · rw [hop, opcodeMap_div_64] at hp
    obtain ⟨i, htake⟩ := takeOperands_full hn (readBytes_length (s := s) (a := s.pc.toNat + 1) (by omega))
    refine ⟨i, spells_of_fetch ?_⟩
    rw [fetch_of_classify hc, operandBytesRead_opcodeMap, if_neg hn, htake]
  · exact absurd ht hnt
  · exact absurd ht hnt

/-- Settles O40: the step faults on a byte outside the tables and on operand bytes past address 255; any other bytes at pc
spell an instruction, and its execution makes the checks that are left. -/
theorem firstFailingCheckIsTheFaultTaken : Obligations.FirstFailingCheckIsTheFaultTaken := by
  intro s hr
  show Answers (step s) s s.firstFault
  by_cases ht : (s.mem.read s.pc.toNat).toNat ∈ tableOpcodes
  · by_cases hp : 255 < s.pc.toNat + (s.mem.read s.pc.toNat).toNat / 64
    · rw [firstFault_past_end ht hp]
      exact answers_fault (operandBytesPastTheEndFault s hr ht hp)
    · obtain ⟨i, hs⟩ := exists_spells ht (Nat.le_of_not_lt hp)
      rw [firstFault_of_spells hs, step_of_spells hr hs]
      exact exec_answers_firstFailingCheck (by rw [hr]; decide) i
  · rw [firstFault_outside_tables ht]
    exact answers_fault (step_outside_tables hr ht)

end Sys2Proof.Machine
end

section
/-! Proofs of the statements about the loader, the image text and the exit status (spec/70_reset_and_hazards.md): when an
image is loaded, what the loaded state holds, and what each line of an image's text adds to it. -/

namespace Sys2Proof.Machine

/-! ## Loading an image -/

/-- The stack area is no bound on an image: all that counts is that it fits the memory (R242). -/
theorem load_of_length_le {draw : Fin 7 → Byte} {img : List Byte} (h : img.length ≤ 256) :
    load draw img = some (State.resetWith draw img) := if_pos h

theorem load_of_lt_length {draw : Fin 7 → Byte} {img : List Byte} (h : 256 < img.length) : load draw img = none :=
  if_neg (Nat.not_le_of_lt h)

/-- Settles O3: an image that fits is loaded, so a refused one does not fit. -/
theorem oversizedImageIsRefused : Obligations.OversizedImageIsRefused := by
  intro draw img
  refine ⟨fun hnone => ?_, load_of_lt_length⟩
  by_contra hfits
  rw [load_of_length_le (Nat.le_of_not_lt hfits)] at hnone
  cases hnone

/-- Each of R0..R6 holds its own draw (spec/10_state.md R25). -/
theorem resetWith_reg_castSucc (draw : Fin 7 → Byte) (img : List Byte) (i : Fin 7) :
    (State.resetWith draw img).reg i.castSucc = draw i := by
  fin_cases i <;> rfl

theorem resetWith_mem (draw : Fin 7 → Byte) (img : List Byte) :
    (State.resetWith draw img).mem = Memory.ofImage 0 img := rfl

/-- An image that fits lies from address 0 on, with 0 in every cell after it (R241). -/
theorem resetWith_mem_read {draw : Fin 7 → Byte} {img : List Byte} (h : img.length ≤ 256) :
    (∀ (i : Nat) (hi : i < img.length), (State.resetWith draw img).mem.read i = img[i]) ∧
      ∀ a : Nat, img.length ≤ a → (State.resetWith draw img).mem.read a = 0 := by
  simpa [resetWith_mem] using Memory.read_ofImage img 0 (by omega)

/-- Settles O2: the loaded state is the reset state of its draw; the placed image gives its memory, and the fields that
neither the draw nor the image reaches have their reset values. -/
theorem loadPlacesImageAndZeroesTheRest : Obligations.LoadPlacesImageAndZeroesTheRest := by
  intro draw img h
  obtain ⟨himage, hrest⟩ := resetWith_mem_read (draw := draw) h
  exact ⟨_, load_of_length_le h, himage, hrest, resetWith_reg_castSucc draw img, rfl, rfl, rfl, rfl, rfl⟩

/-! ## The text of an image -/

/-- A line that gives no bytes adds nothing to the lines after it. -/
theorem parseLines_cons_of_no_bytes {l : Text} (h : parseLine l = some []) (ls : List Text) :
    parseLines (l :: ls) = parseLines ls := by
  simp [parseLines_cons, h]

/-- A line of 8 binary digits puts its byte before the bytes of the lines after it (R243). -/
theorem parseLines_cons_lineOfByte (v : Byte) (ls : List Text) :
    parseLines (lineOfByte v :: ls) = (parseLines ls).map (v :: ·) := by
  simp [parseLines_cons, parseLine_lineOfByte]

/-- The lines of a byte list are read back in file order. -/
theorem parseLines_map_lineOfByte (bytes : List Byte) : parseLines (bytes.map lineOfByte) = some bytes := by
  induction bytes with
  | nil => rfl
  | cons v vs ih => rw [List.map_cons, parseLines_cons_lineOfByte, ih, Option.map_some]

/-- Settles O4: what each form of line gives, put before the lines after it; a line of no form refuses the whole list. -/
theorem imageLinesGiveTheirBytes : Obligations.ImageLinesGiveTheirBytes :=
  ⟨parseLines_map_lineOfByte, parseLines_cons_lineOfByte,
    fun l => parseLines_cons_of_no_bytes (parseLine_comment l),
    fun _ ls hblank => parseLines_cons_of_no_bytes (parseLine_blank hblank) ls,
    fun _ _ hl hcomment hblank hbits => parseLines_none hl (parseLine_none hcomment hblank hbits)⟩

/-! ## The exit status -/

/-- Settles O5: the exit status is a function of the run state alone, given for each of its values (R245). -/
theorem exitStatusZeroOnHaltOneOnFault : Obligations.ExitStatusZeroOnHaltOneOnFault := by
  intro s
  refine ⟨fun hr => ?_, fun hr => ?_, fun hr => ?_⟩ <;> rw [State.exitStatus, hr]

end Sys2Proof.Machine
end
